-- ==== Sys2Proof/Word.lean ====
section
/-! DEFINITION. The word types of the block (00_scope.md R9, 10_state.md R31) and the width arithmetic of
00_scope.md R5. Every value is unsigned. A word whose width is a parameter (`cmd_data`, 4N bits; a command word,
4N + 3 bits) is held as a natural number, bit i of the word being bit i of the number (log 6). -/

namespace Sys2Proof

/-- A digit code, 4 bits: 0 to 9 are the digits, 15 is BLANK, 10 to 14 never stand in DBUF (R31). -/
abbrev Code := BitVec 4

/-- The 3-bit command code `cmd_op` (10_state.md R40, 30_encoding.md R80). -/
abbrev OpCode := BitVec 3

/-- The blank sentinel, "tube off" (R31). -/
def blankCode : Code := 15#4

/-- `ceil(log2 m)` for `m ≥ 1`. -/
def clog2 (m : Nat) : Nat := if m ≤ 1 then 0 else Nat.log2 (m - 1) + 1

/-- The width of a counter that runs over 0 .. m-1: `max(1, ceil(log2 m))` (R5). -/
def counterWidth (m : Nat) : Nat := max 1 (clog2 m)

/-- `W_CMD = 4*N + 3` (R5, 30_encoding.md R80). -/
def cmdWidth (n : Nat) : Nat := 4 * n + 3

end Sys2Proof
end

