-- ==== Sys2Proof/Config.lean ====
section
/-! DEFINITION. What an implementation fixes: the parameters of 00_scope.md R5, those of the host
(43_host_sequencer.md R200) and of the platform (70_reset_and_hazards.md R266, 60_exceptions.md R241); the two
reference configurations of 00_scope.md R6; and the free values, constants without a body. -/

namespace Sys2Proof

/-- What the host does after a rejected LOAD (43_host_sequencer.md R200, R205). -/
inductive RetryPolicy where
  | retry
  | skip
  | halt
deriving DecidableEq, Repr

/-- The parameters, fixed for the lifetime of the hardware (00_scope.md R5). The bounds stand as proof fields, and
`enc` has exactly B bits in every entry: entries 0 to 9 are the digits, entry 10 is BLANK. -/
structure Config where
  /-- N, the number of digit positions. -/
  n : Nat
  /-- B, the bits of an encoded pattern. -/
  b : Nat
  /-- T_SHORT, the length of a line phase in clk cycles. -/
  tShort : Nat
  n_pos : 1 ≤ n
  b_pos : 1 ≤ b
  tShort_pos : 1 ≤ tShort
  /-- ENC, the encoder table on the 11 codes. No law beyond its width (41_transfer_commands.md R130). -/
  enc : Vector (BitVec b) 11
  /-- T_LONG, the host's Waiting time in clk cycles (43_host_sequencer.md R200). -/
  tLong : Nat
  /-- STARTUP_BLANK (43_host_sequencer.md R200). -/
  startupBlank : Bool
  /-- RETRY_POLICY (43_host_sequencer.md R200). -/
  retryPolicy : RetryPolicy
  /-- t_clk, the clock period, in the time unit of `shortDelay` (70_reset_and_hazards.md R266). -/
  tClk : Nat
  /-- shortDelay, the largest minimum time of the driver chip (70_reset_and_hazards.md R266). -/
  shortDelay : Nat
  /-- How many stages the real receiver chain has (60_exceptions.md R241). -/
  chainLength : Nat
deriving DecidableEq, Repr

namespace Config

/-- NB = N*B, the bits of one transfer (42_line_fsm.md R167). -/
def nb (c : Config) : Nat := c.n * c.b

/-- `W_POS`, `W_BIT`, `W_TICK` (R5). -/
def wPos (c : Config) : Nat := counterWidth c.n
def wBit (c : Config) : Nat := counterWidth c.b
def wTick (c : Config) : Nat := counterWidth c.tShort

/-- How long a transfer keeps `busy = 1`: `(2*N*B + 2) * T_SHORT` cycles (42_line_fsm.md R167). -/
def transferCycles (c : Config) : Nat := (2 * c.nb + 2) * c.tShort

/-- BCD4 (R6): `ENC(d) = d`, `ENC(BLANK) = 0b1111`. -/
def bcd4Table : Vector (BitVec 4) 11 := #v[0, 1, 2, 3, 4, 5, 6, 7, 8, 9, 15]

/-- ONEHOT10 (R6): `ENC(d) = 1 << d`, `ENC(BLANK) = 0`. -/
def onehot10Table : Vector (BitVec 10) 11 := #v[1, 2, 4, 8, 16, 32, 64, 128, 256, 512, 0]

/-- The configuration of the test vectors, N = 4, B = 4, T_SHORT = 1, ENC = BCD4 (95_test_vectors.md), with host
and platform values of the model's choice. DESIGN CHOICE (log 2), unsafe for claims about `State.reset` itself. -/
def reference : Config where
  n := 4
  b := 4
  tShort := 1
  n_pos := by decide
  b_pos := by decide
  tShort_pos := by decide
  enc := bcd4Table
  tLong := 5
  startupBlank := true
  retryPolicy := .retry
  tClk := 1
  shortDelay := 1
  chainLength := 16

/-- Whether a real chip is bound to follow the reference receiver: the platform meets `T_SHORT * t_clk ≥ shortDelay`
(70_reset_and_hazards.md R266) and the chain has exactly N*B stages (60_exceptions.md R241, decision D31). -/
def chipFaithful (c : Config) : Bool :=
  decide (c.shortDelay ≤ c.tShort * c.tClk) && decide (c.chainLength = c.nb)

/-! Free values. Each is a constant without a body: nothing can be proved of the value it takes. -/

/-- A pattern bit the spec does not define: ENC of a code 10 to 14, or a bit index of B or more (41_transfer_commands.md
R130; 93_implementation_defined.md U18). FREE VALUE (log 8). -/
opaque undefinedPatternBit : Code → Nat → Bool

/-- The code read at a position outside 0..N-1, which no reachable state does (10_state.md R43 ii, U18). FREE VALUE
(log 8). -/
opaque undefinedCode : Nat → Code

/-- SR and OUT of a receiver at power-on, by register and stage, and its previous line levels (42_line_fsm.md R181,
U13). FREE VALUES (log 9). -/
opaque powerOnSr : Nat → Bool
opaque powerOnOut : Nat → Bool
opaque powerOnClk : Bool
opaque powerOnLatch : Bool

/-- The same of the real driver chip, and the pattern it held before that (log 9). FREE VALUES. -/
opaque chipPowerOnSr : Nat → Bool
opaque chipPowerOnOut : Nat → Bool
opaque chipPowerOnOldOut : Nat → Bool
opaque chipPowerOnClk : Bool
opaque chipPowerOnLatch : Bool

/-- SR and OUT of a real chip where the spec says "any value", by draw and stage (70_reset_and_hazards.md R267, U14,
U16, U17). FREE VALUES (log 11). -/
opaque chipSr : Nat → Nat → Bool
opaque chipOut : Nat → Nat → Bool

/-- Whether a real chip takes a latch pulse that reset cut short, by draw (R267). FREE VALUE (log 11). -/
opaque chipTakesLatch : Nat → Bool

/-- What `next_digit()` answers once the listed draws are used up, by draw and position (43_host_sequencer.md R202).
FREE VALUE (log 13). -/
opaque nextDigit : Nat → Nat → Nat

end Config

end Sys2Proof
end

