-- ==== Sys2Proof/Syntax.lean ====
section
/-! DEFINITION. The commands of the opcode map (30_encoding.md R82), the lines of a host program (30_encoding.md
R88, 43_host_sequencer.md R211) and the assembler's lines (30_encoding.md R87, R88). -/

namespace Sys2Proof

/-- The eight commands, one per row of the opcode table (30_encoding.md R82). Only LOAD has an operand, one code
per position, position 0 first (R83). -/
inductive Instr where
  | nop
  | load (lanes : List Code)
  | clear
  | xfer
  | blank
  | clrerr
  | rsvd6
  | rsvd7
deriving DecidableEq, Repr

/-- A line of a host program after assembly: a command presented on the port, or a directive (43_host_sequencer.md
R211). A command line holds the wires it drives, so that ignored `cmd_data` bits can be driven too. -/
inductive Line where
  | cmd (op : OpCode) (data : Nat)
  | reset (k : Nat)
  | idle (k : Nat)
  | waitrdy
deriving DecidableEq, Repr

/-- A line as the assembler reads it, operands still plain integers (30_encoding.md R87, R88). -/
inductive AsmLine where
  | nop
  | load (operands : List Nat)
  | clear
  | xfer
  | blank
  | clrerr
  | raw (op data : Nat)
  | reset (k : Nat)
  | idle (k : Nat)
  | waitrdy
  | showDigits (operands : List Nat)
  | blankAll
deriving DecidableEq, Repr

end Sys2Proof
end

