-- ==== Sys2Proof/WellFormed.lean ====
section
/-! DEFINITION. Which commands, program lines and assembler lines are well formed for a block of N positions. -/

namespace Sys2Proof

/-- A LOAD carries exactly N lanes; no other command has an operand (30_encoding.md R83, 20_memory.md R65). -/
def Instr.wf (n : Nat) : Instr → Bool
  | .load lanes => lanes.length == n
  | .nop | .clear | .xfer | .blank | .clrerr | .rsvd6 | .rsvd7 => true

/-- A command line drives 4N data wires; `RESET k` has k ≥ 1 (30_encoding.md R87, R88). -/
def Line.wf (n : Nat) : Line → Bool
  | .cmd _ data => decide (data < 2 ^ (4 * n))
  | .reset k => decide (1 ≤ k)
  | .idle _ => true
  | .waitrdy => true

/-- Why the assembler rejects a line (30_encoding.md R87, R88). -/
inductive AsmError where
  /-- The mnemonic is none of R87 and R88. -/
  | unknownMnemonic
  /-- An operand is no integer, or operands stand where the mnemonic takes none. -/
  | badOperand
  /-- A LOAD or SHOW with a count of operands other than N. -/
  | operandCount
  /-- A LOAD or SHOW operand above 15. -/
  | operandAbove15
  /-- `.cmd` with an op above 7. -/
  | opAbove7
  /-- `.cmd` with data of 2^(4N) or more. -/
  | dataTooWide
  /-- `RESET 0`. -/
  | resetZero
deriving DecidableEq, Repr

/-- The operands of a LOAD or SHOW: exactly N, each at most 15 (R87). -/
def checkLanes (n : Nat) (operands : List Nat) : Except AsmError Unit :=
  if operands.length ≠ n then .error .operandCount
  else if operands.any (fun v => decide (15 < v)) then .error .operandAbove15
  else .ok ()

/-- The first thing wrong with an assembler line, if any (R87, R88). -/
def AsmLine.check (n : Nat) : AsmLine → Except AsmError Unit
  | .load operands => checkLanes n operands
  | .showDigits operands => checkLanes n operands
  | .raw op data =>
    if 7 < op then .error .opAbove7 else if 2 ^ (4 * n) ≤ data then .error .dataTooWide else .ok ()
  | .reset k => if k = 0 then .error .resetZero else .ok ()
  | .nop | .clear | .xfer | .blank | .clrerr | .idle _ | .waitrdy | .blankAll => .ok ()

end Sys2Proof
end

