-- ==== Sys2Proof/Decode.lean ====
section
/-! DEFINITION. Decoding and encoding of command words (30_encoding.md R80 to R83). A command written as one word is
`cmd_data ++ cmd_op`: op in bits [2:0], lane p in bits [4p+6:4p+3]. -/

namespace Sys2Proof

/-- Lane p of the operand wires: `cmd_data[4p+3:4p]` (30_encoding.md R83, 20_memory.md R63 a). -/
def laneOf (data p : Nat) : Code := BitVec.ofNat 4 (data >>> (4 * p))

/-- The N lanes, position 0 first (R83). -/
def lanesOf (n data : Nat) : List Code := (List.range n).map (laneOf data)

/-- The wires that carry a list of lanes, the first in the lowest place (R63 a). -/
def packLanes : List Code → Nat
  | [] => 0
  | c :: rest => c.toNat + 16 * packLanes rest

/-- The command that the port wires `cmd_op` and `cmd_data` carry. Only `op` selects it (R81, R82); only LOAD reads
the data (R83). -/
def decodeFields (n : Nat) (op : OpCode) (data : Nat) : Instr :=
  match op.toNat with
  | 0 => .nop
  | 1 => .load (lanesOf n data)
  | 2 => .clear
  | 3 => .xfer
  | 4 => .blank
  | 5 => .clrerr
  | 6 => .rsvd6
  | _ => .rsvd7

/-- Why a number is no command word. -/
inductive DecodeError where
  /-- It has a bit at W_CMD = 4N + 3 or above (R81: "exactly one length, W_CMD bits"). -/
  | wordTooWide
deriving DecidableEq, Repr

/-- The command of a word of W_CMD bits. All 8 values of op are listed (R82), so only a number that has no W_CMD-bit
form is rejected (log 20). -/
def decode (n word : Nat) : Except DecodeError Instr :=
  if word < 2 ^ cmdWidth n then .ok (decodeFields n (BitVec.ofNat 3 word) (word >>> 3)) else .error .wordTooWide

/-- The code of a command (R82). -/
def opOf : Instr → OpCode
  | .nop => 0
  | .load _ => 1
  | .clear => 2
  | .xfer => 3
  | .blank => 4
  | .clrerr => 5
  | .rsvd6 => 6
  | .rsvd7 => 7

/-- The data wires of a command: the lanes of a LOAD, and 0 for the others (R87). -/
def dataOf : Instr → Nat
  | .load lanes => packLanes lanes
  | .nop | .clear | .xfer | .blank | .clrerr | .rsvd6 | .rsvd7 => 0

/-- The word `cmd_data ++ cmd_op` of port wires (R80). -/
def wordOf (op : OpCode) (data : Nat) : Nat := data * 8 + op.toNat

/-- The word of a command (R80, R87). -/
def encode (i : Instr) : Nat := wordOf (opOf i) (dataOf i)

/-- What the decoder reads from a row of the opcode table, at the reference configuration N = 4 (logs 2, 20). -/
def decodeTableWord (nbits w : Nat) : Option Instr :=
  match decode Config.reference.n (w % 2 ^ nbits) with
  | .ok i => some i
  | .error _ => none

end Sys2Proof
end

