-- ==== Sys2Proof/Machine/State.lean ====
section
/-! DEFINITION. The state of the machine: the controller's registers (10_state.md R30 to R37), the reference receiver
(42_line_fsm.md R180), the real driver chip (70_reset_and_hazards.md R266, R267), the host that drives the ports
(43_host_sequencer.md), and the configuration (00_scope.md R5), which no step writes (log 1). -/

namespace Sys2Proof.Machine

/-- FSM, 3 bits (10_state.md R33): the five phases, and the codes 5, 6 and 7, which no reachable state holds (R43 v)
but a state before the first reset may (R44, log 7). -/
inductive Phase where
  | idle
  | setup
  | high
  | lsetup
  | lhigh
  | unused5
  | unused6
  | unused7
deriving DecidableEq, Repr

/-- The input ports of one cycle (10_state.md R40). `cmdData` is the number on the 4N data wires. -/
structure Inputs where
  rst : Bool
  cmdValid : Bool
  cmdOp : OpCode
  cmdData : Nat
deriving DecidableEq, Repr

/-- A driver chip's registers: SR and OUT, stage 0 first, and the line levels of the cycle before (42_line_fsm.md
R180). -/
structure Receiver where
  sr : List Bool
  out : List Bool
  prevClk : Bool
  prevLatch : Bool
deriving DecidableEq, Repr

/-- The real driver chip (70_reset_and_hazards.md R267): its registers, the pattern OUT held before its last latch
rise, and the count of free values it has drawn (log 11). -/
structure Chip where
  regs : Receiver
  oldOut : List Bool
  draws : Nat
deriving DecidableEq, Repr

/-- Where the reference refresh loop stands (43_host_sequencer.md R203 to R209). The seven states of R203 are cut at
the points where the host waits for the block. `loading` holds the data of a LOAD not accepted yet. -/
inductive RefreshPhase where
  /-- Startup: drives `rst` for this many more cycles after the current one (R204). -/
  | startupReset (more : Nat)
  /-- Startup: presents BLANK (R204). -/
  | startupBlank
  /-- Startup: waits for `cmd_ready = 1` (R204). -/
  | startupWait
  /-- Idle: checks the stop signal (R208, R209). -/
  | idle
  /-- Regenerating, step 1: presents CLRERR (R205). -/
  | clearing
  /-- Regenerating, step 2: draws (R205). -/
  | drawing
  /-- Regenerating, step 2: presents LOAD with the drawn lanes (R205). -/
  | loading (data : Nat)
  /-- Regenerating, step 3: reads `err_digit` (R205). -/
  | reading
  /-- Transferring: presents XFER (R206). -/
  | transferring
  /-- Transferring: waits for the transfer to complete (R207). -/
  | transferWait
  /-- Waiting: this many cycles are left (R208). -/
  | waiting (left : Nat)
  /-- Stopping: presents BLANK (R209). -/
  | stopBlank
  /-- Stopping: waits for `cmd_ready = 1` (R209). -/
  | stopWait
  /-- Stopped (R209). -/
  | stopped
deriving DecidableEq, Repr

/-- The reference refresh loop: where it stands, the coming answers of `next_digit()` (R202) and of the stop signal
(R209), and how many LOADs have drawn beyond the listed answers (log 13). -/
structure Refresh where
  phase : RefreshPhase
  digits : List Nat
  stops : List Bool
  draws : Nat
deriving DecidableEq, Repr

/-- What drives the ports: an explicit trace of inputs, the head standing for the current cycle; a program, its head
the current line (R211); or the reference refresh loop (R203). Log 3. -/
inductive Driver where
  | trace (inputs : List Inputs)
  | program (lines : List Line)
  | refresh (loop : Refresh)
deriving DecidableEq, Repr

/-- The state during one cycle, after its rising edge (00_scope.md R10). -/
structure State where
  /-- The parameters, never written (R5, log 1). -/
  cfg : Config
  /-- DBUF, position 0 first (R30). -/
  dbuf : List Code
  /-- FSM (R33). -/
  fsm : Phase
  /-- POS (R33). -/
  pos : Nat
  /-- BIT (R33). -/
  bit : Nat
  /-- TICK (R33). -/
  tick : Nat
  /-- SRC: false sends DBUF, true sends BLANK (R34). -/
  src : Bool
  /-- ERR_DIGIT (R36). -/
  errDigit : Bool
  /-- ERR_OP (R37). -/
  errOp : Bool
  /-- The reference receiver, before its step of this cycle (R180, log 10). -/
  rx : Receiver
  /-- The real driver chip, before its step of this cycle (R267, log 11). -/
  chip : Chip
  /-- What drives the ports in this cycle and after it (R7, R201, log 3). -/
  host : Driver
deriving DecidableEq, Repr

/-- Why a step stops. -/
inductive Fault where
  /-- Raised by a cycle without `rst` whose FSM holds 5, 6 or 7: the transitions of 42_line_fsm.md R163 give no case
  for these codes, which no state after a reset holds (10_state.md R43 v, 93_implementation_defined.md U18). Safe: the
  model stops where the spec says nothing (log 7). -/
  | unusedPhase
deriving DecidableEq, Repr

/-- Why an instruction has no meaning. -/
inductive Refusal where
  /-- Raised by an arm of `exec` whose instruction is not modelled. No arm raises it. Safe. -/
  | notModelled (mnemonic : String)
deriving DecidableEq, Repr

/-- The receiver at power-on: any value, which the block's reset does not touch (42_line_fsm.md R181, log 9). -/
def Receiver.powerOn (c : Config) : Receiver where
  sr := (List.range c.nb).map Config.powerOnSr
  out := (List.range c.nb).map Config.powerOnOut
  prevClk := Config.powerOnClk
  prevLatch := Config.powerOnLatch

/-- The real chip at power-on: any value (log 9). -/
def Chip.powerOn (c : Config) : Chip where
  regs :=
    { sr := (List.range c.chainLength).map Config.chipPowerOnSr
      out := (List.range c.chainLength).map Config.chipPowerOnOut
      prevClk := Config.chipPowerOnClk
      prevLatch := Config.chipPowerOnLatch }
  oldOut := (List.range c.chainLength).map Config.chipPowerOnOldOut
  draws := 0

/-- The state right after a reset edge in a block built with the parameters `c` (10_state.md R44), with the receiver
and the chip as power-on left them and a host that drives nothing (log 4). -/
def State.resetFor (c : Config) : State where
  cfg := c
  dbuf := List.replicate c.n blankCode
  fsm := .idle
  pos := 0
  bit := 0
  tick := 0
  src := false
  errDigit := false
  errOp := false
  rx := Receiver.powerOn c
  chip := Chip.powerOn c
  host := .trace []

/-- The state right after reset (10_state.md R44), at the reference configuration (log 2). -/
def State.reset : State := State.resetFor Config.reference

end Sys2Proof.Machine
end

