-- ==== Sys2Proof/Machine/Operands.lean ====
section
/-! DEFINITION. Operand checks and the encoder: the digit range check (40_buffer_commands.md R101), the code sent for a
position (41_transfer_commands.md R131), the encoder ENC (R130), the wire order (R132), and how lanes are packed on the
parallel ports (20_memory.md R63 a). -/

namespace Sys2Proof.Machine

/-- `valid(c)`: the unsigned 4-bit value is at most 9 (R101). -/
def validDigit (c : Code) : Bool := decide (c.toNat ≤ 9)

/-- Whether every lane of a LOAD is valid (40_buffer_commands.md R102). -/
def allValid (lanes : List Code) : Bool := lanes.all validDigit

/-- What a DBUF cell may hold: 0 to 9 or BLANK (10_state.md R31, R43 i). -/
def storable (c : Code) : Bool := validDigit c || c == blankCode

/-- The entry of ENC for a code: the digits at 0 to 9, BLANK at 10, none for 10 to 14 (41_transfer_commands.md R130). -/
def encIndex (c : Code) : Option (Fin 11) :=
  if h : c.toNat ≤ 9 then some ⟨c.toNat, by omega⟩
  else if c == blankCode then some 10
  else none

/-- `ENC(c)[b]` (00_scope.md R12). A free value where ENC has no such entry or bit (log 8). -/
def patternBit (cfg : Config) (c : Code) (b : Nat) : Bool :=
  match encIndex c with
  | some i => if b < cfg.b then cfg.enc[i].getLsbD b else Config.undefinedPatternBit c b
  | none => Config.undefinedPatternBit c b

/-- `code(p)`: BLANK when SRC is 1, DBUF[p] otherwise (41_transfer_commands.md R131). A free value where DBUF has no
cell p (log 8). -/
def codeAt (s : State) (p : Nat) : Code :=
  if s.src then blankCode else s.dbuf[p]?.getD (Config.undefinedCode p)

/-- The position and the bit index of stream bit k: positions from N-1 down, bits of each pattern from B-1 down
(41_transfer_commands.md R132). -/
def streamPos (cfg : Config) (k : Nat) : Nat := (cfg.n - 1) - k / cfg.b
def streamBit (cfg : Config) (k : Nat) : Nat := (cfg.b - 1) - k % cfg.b

/-- `S[k]`, stream bit k of a transfer of the codes `code` (R132). -/
def streamOf (cfg : Config) (code : Nat → Code) (k : Nat) : Bool :=
  patternBit cfg (code (streamPos cfg k)) (streamBit cfg k)

/-- `dbuf_q`: lane p is DBUF[p] (10_state.md R40). -/
def dbufQ (s : State) : Nat := packLanes s.dbuf

/-- The lane that carries a drawn digit: a draw above 15 is presented as the invalid lane 15, never as its low bits
(43_host_sequencer.md R202, U11; log 14). -/
def laneOfDraw (v : Nat) : Code := if v ≤ 15 then BitVec.ofNat 4 v else 15#4

end Sys2Proof.Machine
end

