-- ==== Sys2Proof/Machine/Ops.lean ====
section
/-! DEFINITION. The shared operations on the controller's state: writing DBUF, raising an error (the block's form of
taking an exception, 60_exceptions.md R230 to R236) and lowering the flags again (R237), starting a transfer, resetting
the block, and presenting a command on the port. -/

namespace Sys2Proof.Machine

/-- The two error causes (60_exceptions.md R231, R232). -/
inductive Cause where
  | invalidDigitValue
  | illegalCommand
deriving DecidableEq, Repr

/-- Error entry: sets the sticky flag of the cause and does nothing else: no state is saved, no mode, mask, sequencing
or line output changes (60_exceptions.md R236, 00_scope.md R12). -/
def raiseError (c : Cause) (s : State) : State :=
  match c with
  | .invalidDigitValue => { s with errDigit := true }
  | .illegalCommand => { s with errOp := true }

/-- The way back: both flags lowered (40_buffer_commands.md R106, 60_exceptions.md R237). -/
def clearErrors (s : State) : State := { s with errDigit := false, errOp := false }

/-- A whole-buffer write of DBUF (20_memory.md R64, R66). -/
def writeDbuf (cells : List Code) (s : State) : State := { s with dbuf := cells }

/-- The start of a transfer with SRC = `src` (41_transfer_commands.md R134, R135). -/
def startTransfer (src : Bool) (s : State) : State :=
  { s with src := src, fsm := .setup, pos := s.cfg.n - 1, bit := s.cfg.b - 1, tick := 0 }

/-- The sequencing state at rest (10_state.md R43 iii). -/
def idleSequencer (s : State) : State := { s with fsm := .idle, pos := 0, bit := 0, tick := 0 }

/-- A reset edge: every field of the block takes its reset value, whatever it held (70_reset_and_hazards.md R260,
10_state.md R44). The receiver is not reset by the block (42_line_fsm.md R181). -/
def resetBlock (s : State) : State :=
  { s with
    dbuf := List.replicate s.cfg.n blankCode
    fsm := .idle
    pos := 0
    bit := 0
    tick := 0
    src := false
    errDigit := false
    errOp := false }

/-- A cycle in which the host drives nothing: `rst = 0`, `cmd_valid = 0` (43_host_sequencer.md R211). DESIGN CHOICE (log
23): the spec does not say what stands on `cmd_op` and `cmd_data` then; the model drives 0, which no block can see (R84). -/
def quietInputs : Inputs where
  rst := false
  cmdValid := false
  cmdOp := 0
  cmdData := 0

/-- A cycle in which the host presents a command (10_state.md R40). -/
def commandInputs (op : OpCode) (data : Nat) : Inputs where
  rst := false
  cmdValid := true
  cmdOp := op
  cmdData := data

/-- A cycle in which the host drives `rst = 1` and no command (43_host_sequencer.md R211), the command wires 0 (log 23). -/
def resetInputs : Inputs := { quietInputs with rst := true }

/-- A command presented on the port in this very cycle: the wires of the word `w`, its op in bits [2:0] and its data
above (30_encoding.md R80). A busy sequencer is put to rest, since a command is accepted only in IDLE (R84; log 5). -/
def presentWord (w : Nat) (s : State) : State :=
  { (if s.fsm = .idle then s else idleSequencer s) with
    host := .trace [commandInputs (BitVec.ofNat 3 w) ((w >>> 3) % 2 ^ (4 * s.cfg.n))] }

end Sys2Proof.Machine
end

