-- ==== Sys2Proof/Machine/Flags.lean ====
section
/-! DEFINITION. The two sticky flags as the host reads them: cause codes and the notional status vector
`(err_op, err_digit)` (60_exceptions.md R231, R232). There are no condition codes (10_state.md R38). -/

namespace Sys2Proof.Machine

/-- The cause code (R231, R232). -/
def Cause.code : Cause → Nat
  | .invalidDigitValue => 1
  | .illegalCommand => 2

/-- The bit of the status vector that reports the cause (R231, R232). -/
def Cause.statusBit : Cause → Nat
  | .invalidDigitValue => 0
  | .illegalCommand => 1

/-- The status vector: bit 1 is `err_op`, bit 0 is `err_digit`. -/
def statusVector (s : State) : BitVec 2 := BitVec.ofBool s.errOp ++ BitVec.ofBool s.errDigit

end Sys2Proof.Machine
end

