-- ==== Sys2Proof/Machine/Buffer.lean ====
section
/-! DEFINITION. The buffer and control commands, at their accepting edge (40_buffer_commands.md). -/

namespace Sys2Proof.Machine

/-- NOP: no field changes (R100). -/
def execNop (s : State) : Host.Outcome State Fault Refusal := .next s

/-- LOAD: all lanes valid, the whole buffer is written (R102); otherwise InvalidDigitValue and no cell changes
(R103). -/
def execLoad (lanes : List Code) (s : State) : Host.Outcome State Fault Refusal :=
  .next (if allValid lanes then writeDbuf lanes s else raiseError .invalidDigitValue s)

/-- CLEAR: every position takes BLANK (R104). -/
def execClear (s : State) : Host.Outcome State Fault Refusal := .next (writeDbuf (List.replicate s.cfg.n blankCode) s)

/-- CLRERR: both error flags are cleared (R106). -/
def execClrerr (s : State) : Host.Outcome State Fault Refusal := .next (clearErrors s)

/-- Reserved code 6: IllegalCommand (R108). -/
def execRsvd6 (s : State) : Host.Outcome State Fault Refusal := .next (raiseError .illegalCommand s)

/-- Reserved code 7: IllegalCommand (R108). -/
def execRsvd7 (s : State) : Host.Outcome State Fault Refusal := .next (raiseError .illegalCommand s)

end Sys2Proof.Machine
end

