-- ==== Sys2Proof/Machine/Transfer.lean ====
section
/-! DEFINITION. The transfer commands, at their accepting edge (41_transfer_commands.md). The line sequence that follows
is the sequencer's. -/

namespace Sys2Proof.Machine

/-- XFER: a transfer of DBUF starts (R134). -/
def execXfer (s : State) : Host.Outcome State Fault Refusal := .next (startTransfer false s)

/-- BLANK: a transfer of BLANK in every position starts; DBUF is not written (R135). -/
def execBlank (s : State) : Host.Outcome State Fault Refusal := .next (startTransfer true s)

end Sys2Proof.Machine
end

