-- ==== Sys2Proof/Machine/Dispatch.lean ====
section
/-! DEFINITION. `execute` of 42_line_fsm.md R165: one arm per command of the opcode map (30_encoding.md R82). -/

namespace Sys2Proof.Machine

def exec (i : Instr) (s : State) : Host.Outcome State Fault Refusal :=
  match i with
  | .nop => Sys2Proof.Machine.execNop s
  | .load lanes => Sys2Proof.Machine.execLoad lanes s
  | .clear => Sys2Proof.Machine.execClear s
  | .xfer => Sys2Proof.Machine.execXfer s
  | .blank => Sys2Proof.Machine.execBlank s
  | .clrerr => Sys2Proof.Machine.execClrerr s
  | .rsvd6 => Sys2Proof.Machine.execRsvd6 s
  | .rsvd7 => Sys2Proof.Machine.execRsvd7 s

end Sys2Proof.Machine
end

