-- ==== Sys2Proof/Machine/Lines.lean ====
section
/-! DEFINITION. The outputs, each a function of the current state alone (00_scope.md R11, 10_state.md R40,
42_line_fsm.md R160, R170). -/

namespace Sys2Proof.Machine

/-- The 3-bit code of FSM (10_state.md R33). -/
def Phase.toBits : Phase → BitVec 3
  | .idle => 0
  | .setup => 1
  | .high => 2
  | .lsetup => 3
  | .lhigh => 4
  | .unused5 => 5
  | .unused6 => 6
  | .unused7 => 7

/-- Whether FSM holds one of the codes 5 to 7 (10_state.md R43 v). -/
def Phase.unused (p : Phase) : Bool := decide (5 ≤ p.toBits.toNat)

/-- `cmd_ready`: `FSM == IDLE` (R40). -/
def cmdReady (s : State) : Bool := decide (s.fsm = .idle)

/-- `busy`: `FSM != IDLE` (R40). -/
def busy (s : State) : Bool := !cmdReady s

/-- SER_CLK (R170). -/
def serClk (s : State) : Bool := decide (s.fsm = .high)

/-- SER_LATCH (R170). -/
def serLatch (s : State) : Bool := decide (s.fsm = .lhigh)

/-- SER_DATA: the bit being shifted in SETUP and HIGH, 0 otherwise (R170). -/
def serData (s : State) : Bool :=
  match s.fsm with
  | .setup | .high => patternBit s.cfg (codeAt s s.pos) s.bit
  | .idle | .lsetup | .lhigh | .unused5 | .unused6 | .unused7 => false

/-- The three line levels. -/
structure Lines where
  data : Bool
  clk : Bool
  latch : Bool
deriving DecidableEq, Repr

def linesOf (s : State) : Lines := ⟨serData s, serClk s, serLatch s⟩

/-- All output ports (10_state.md R40). -/
structure Outputs where
  cmdReady : Bool
  busy : Bool
  errDigit : Bool
  errOp : Bool
  dbufQ : Nat
  lines : Lines
deriving DecidableEq, Repr

def outputsOf (s : State) : Outputs where
  cmdReady := cmdReady s
  busy := busy s
  errDigit := s.errDigit
  errOp := s.errOp
  dbufQ := dbufQ s
  lines := linesOf s

end Sys2Proof.Machine
end

