-- ==== Sys2Proof/Machine/Program.lean ====
section
/-! DEFINITION. How a host program becomes inputs, cycle by cycle (43_host_sequencer.md R211). -/

namespace Sys2Proof.Machine

/-- What the host drives in the current cycle and the lines it has left after it. A command is presented until it is
accepted, which in a cycle without `rst` is when `cmd_ready = 1`; `RESET k` and `IDLE k` take k cycles; `WAITRDY` takes
none once `cmd_ready = 1`; after the last line nothing is driven (R211). A directive with no cycle left takes none
(log 15). -/
def programDrive (ready : Bool) : List Line → Inputs × List Line
  | [] => (quietInputs, [])
  | .cmd op data :: rest => (commandInputs op data, if ready then rest else .cmd op data :: rest)
  | .reset (k + 1) :: rest => (resetInputs, .reset k :: rest)
  | .reset 0 :: rest => programDrive ready rest
  | .idle (k + 1) :: rest => (quietInputs, .idle k :: rest)
  | .idle 0 :: rest => programDrive ready rest
  | .waitrdy :: rest => if ready then programDrive ready rest else (quietInputs, .waitrdy :: rest)

/-- Whether a line after the last one would start in the current cycle: cycle `t_last` has come (R211). -/
def programDone (ready : Bool) : List Line → Bool
  | [] => true
  | .cmd _ _ :: _ => false
  | .reset (_ + 1) :: _ => false
  | .reset 0 :: rest => programDone ready rest
  | .idle (_ + 1) :: _ => false
  | .idle 0 :: rest => programDone ready rest
  | .waitrdy :: rest => ready && programDone ready rest

/-- The end of the run: no line is left and FSM = IDLE (R211). -/
def runEnded (s : State) : Bool :=
  match s.host with
  | .program lines => programDone (cmdReady s) lines && cmdReady s
  | .trace _ | .refresh _ => false

end Sys2Proof.Machine
end

