-- ==== Sys2Proof/Machine/RefreshLoop.lean ====
section
/-! DEFINITION. The reference refresh loop as a host (43_host_sequencer.md R202 to R210). Every check of the loop (the
stop signal, `err_digit`, `cmd_ready`) is made on the outputs of the current cycle and takes no cycle of its own; a
command is presented until it is accepted (log 12). -/

namespace Sys2Proof.Machine

/-- The states of R203. -/
inductive LoopState where
  | startup
  | idle
  | regenerating
  | transferring
  | waiting
  | stopping
  | stopped
deriving DecidableEq, Repr

/-- The state of R203 a point of the loop belongs to. -/
def RefreshPhase.loopState : RefreshPhase → LoopState
  | .startupReset _ | .startupBlank | .startupWait => .startup
  | .idle => .idle
  | .clearing | .drawing | .loading _ | .reading => .regenerating
  | .transferring | .transferWait => .transferring
  | .waiting _ => .waiting
  | .stopBlank | .stopWait => .stopping
  | .stopped => .stopped

/-- Presents a command: the loop goes on to `next` when it is accepted, and stays at `stay` until then (R210). -/
def present (i : Instr) (ready : Bool) (stay next : RefreshPhase) (h : Refresh) : Inputs × Refresh :=
  (commandInputs (opOf i) (dataOf i), { h with phase := if ready then next else stay })

/-- Transferring: issues XFER (R206). -/
def transferNow (ready : Bool) (h : Refresh) : Inputs × Refresh := present .xfer ready .transferring .transferWait h

/-- Stopping: issues BLANK (R209). -/
def stopNow (ready : Bool) (h : Refresh) : Inputs × Refresh := present .blank ready .stopBlank .stopWait h

/-- Lowers `err_digit` before a LOAD (R205). -/
def clearNow (ready : Bool) (h : Refresh) : Inputs × Refresh := present .clrerr ready .clearing .drawing h

/-- Presents the LOAD whose data wires are `data` (R205). -/
def loadNow (ready : Bool) (data : Nat) (h : Refresh) : Inputs × Refresh :=
  (commandInputs (opOf (.load [])) data, { h with phase := if ready then .reading else .loading data })

/-- The lanes of N draws, one for each position (R202): the listed answers first, then free values (log 13). -/
def drawnLanes (n : Nat) (h : Refresh) : List Code :=
  (List.range n).map fun p => laneOfDraw (h.digits[p]?.getD (Config.nextDigit h.draws p))

/-- The loop after N draws. -/
def afterDraw (n : Nat) (h : Refresh) : Refresh :=
  { h with
    digits := h.digits.drop n
    draws := if h.digits.length < n then h.draws + 1 else h.draws }

/-- Draws N values and presents them (R205, step 2). -/
def drawNow (n : Nat) (ready : Bool) (h : Refresh) : Inputs × Refresh :=
  loadNow ready (packLanes (drawnLanes n h)) (afterDraw n h)

/-- Entering Regenerating: CLRERR first if `err_digit = 1` (R205, step 1). -/
def regenerateNow (cfg : Config) (ready errDigit : Bool) (h : Refresh) : Inputs × Refresh :=
  if errDigit then clearNow ready h else drawNow cfg.n ready h

/-- The stop check at the Idle and Waiting boundary: Stopping if the signal is seen, Regenerating if not (R208, R209).
Once the listed answers are used up the signal is not seen again (log 13). -/
def checkStop (cfg : Config) (ready errDigit : Bool) (h : Refresh) : Inputs × Refresh :=
  if h.stops.headD false then stopNow ready { h with stops := h.stops.tail }
  else regenerateNow cfg ready errDigit { h with stops := h.stops.tail }

/-- Waiting with `left` cycles to go, `cmd_valid = 0` in each, and then the stop check (R208). -/
def waitNow (cfg : Config) (ready errDigit : Bool) (left : Nat) (h : Refresh) : Inputs × Refresh :=
  match left with
  | 0 => checkStop cfg ready errDigit h
  | k + 1 => (quietInputs, { h with phase := .waiting k })

/-- Reading `err_digit` in the cycle after the LOAD was accepted, and acting on RETRY_POLICY (R205, steps 3 to 5). -/
def readNow (cfg : Config) (ready errDigit : Bool) (h : Refresh) : Inputs × Refresh :=
  if errDigit then
    match cfg.retryPolicy with
    | .retry => clearNow ready h
    | .skip => transferNow ready h
    | .halt => stopNow ready h
  else transferNow ready h

/-- What the refresh loop drives in the current cycle, and where it stands after it. -/
def refreshDrive (cfg : Config) (ready errDigit : Bool) (h : Refresh) : Inputs × Refresh :=
  match h.phase with
  | .startupReset 0 =>
    (resetInputs, { h with phase := if cfg.startupBlank then .startupBlank else .idle })
  | .startupReset (k + 1) => (resetInputs, { h with phase := .startupReset k })
  | .startupBlank => present .blank ready .startupBlank .startupWait h
  | .startupWait => if ready then checkStop cfg ready errDigit h else (quietInputs, h)
  | .idle => checkStop cfg ready errDigit h
  | .clearing => clearNow ready h
  | .drawing => drawNow cfg.n ready h
  | .loading data => loadNow ready data h
  | .reading => readNow cfg ready errDigit h
  | .transferring => transferNow ready h
  | .transferWait => if ready then waitNow cfg ready errDigit cfg.tLong h else (quietInputs, h)
  | .waiting left => waitNow cfg ready errDigit left h
  | .stopBlank => stopNow ready h
  | .stopWait => if ready then (quietInputs, { h with phase := .stopped }) else (quietInputs, h)
  | .stopped => (quietInputs, h)

end Sys2Proof.Machine
end

