-- ==== Sys2Proof/Machine/Drive.lean ====
section
/-! DEFINITION. What the host drives on the ports in the current cycle (43_host_sequencer.md R201). It may look at the
outputs of the cycle, since those depend on the state alone (00_scope.md R11). -/

namespace Sys2Proof.Machine

/-- The inputs of the current cycle, and the host after it. A trace that has run out drives nothing (log 3). -/
def driverStep (s : State) : Inputs × Driver :=
  match s.host with
  | .trace [] => (quietInputs, .trace [])
  | .trace (inp :: rest) => (inp, .trace rest)
  | .program lines => ((programDrive (cmdReady s) lines).1, .program (programDrive (cmdReady s) lines).2)
  | .refresh h =>
    ((refreshDrive s.cfg (cmdReady s) s.errDigit h).1, .refresh (refreshDrive s.cfg (cmdReady s) s.errDigit h).2)

/-- The inputs of the current cycle. -/
def portInputs (s : State) : Inputs := (driverStep s).1

/-- The host in the next cycle. -/
def hostNext (s : State) : Driver := (driverStep s).2

end Sys2Proof.Machine
end

