-- ==== Sys2Proof/Machine/Receiver.lean ====
section
/-! DEFINITION. The reference receiver (42_line_fsm.md R180) and the real driver chip (70_reset_and_hazards.md R266,
R267; 93_implementation_defined.md U14 to U17). Neither feeds anything back to the block (R183). -/

namespace Sys2Proof.Machine

/-- One receiver cycle of a chain of `len` stages: a rise of SER_CLK shifts SER_DATA into stage 0, stage i moves to
i+1 and the last stage's bit is lost; then a rise of SER_LATCH copies SR, as it stands after the shift, to OUT (R180). -/
def receiverStep (len : Nat) (l : Lines) (r : Receiver) : Receiver :=
  let sr := if l.clk && !r.prevClk then (l.data :: r.sr).take len else r.sr
  let out := if l.latch && !r.prevLatch then sr else r.out
  { sr := sr, out := out, prevClk := l.clk, prevLatch := l.latch }

/-- The receiver's OUT in the current cycle, its step of this cycle taken (R180, log 10). -/
def displayed (s : State) : List Bool := (receiverStep s.cfg.nb (linesOf s) s.rx).out

/-- What tube p shows: `OUT[p*B + B-1 : p*B]`, bit 0 first (R180). -/
def tubePattern (cfg : Config) (out : List Bool) (p : Nat) : List Bool := (out.drop (p * cfg.b)).take cfg.b

/-- `len` free bits. -/
def freeBits (f : Nat → Bool) (len : Nat) : List Bool := (List.range len).map f

/-- One cycle of the real chip. Where the platform does not meet R266 or the chain length is not N*B, SR and OUT are any
value (U16, U17). Where reset cuts a transfer, SR is any value, and OUT is either the old or the new pattern if the
reset fell within LHIGH (R267, U14). Otherwise it follows the reference receiver. Log 11. -/
def chipStep (cfg : Config) (rst : Bool) (fsm : Phase) (l : Lines) (c : Chip) : Chip :=
  let regs := receiverStep cfg.chainLength l c.regs
  let oldOut := if l.latch && !c.regs.prevLatch then c.regs.out else c.oldOut
  let anySr := freeBits (Config.chipSr c.draws) cfg.chainLength
  if !cfg.chipFaithful then
    { regs := { regs with sr := anySr, out := freeBits (Config.chipOut c.draws) cfg.chainLength }
      oldOut := oldOut
      draws := c.draws + 1 }
  else if rst && decide (fsm ≠ .idle) then
    { regs :=
        { regs with
          sr := anySr
          out := if fsm = .lhigh && !Config.chipTakesLatch c.draws then oldOut else regs.out }
      oldOut := oldOut
      draws := c.draws + 1 }
  else { regs := regs, oldOut := oldOut, draws := c.draws }

end Sys2Proof.Machine
end

