-- ==== Sys2Proof/Machine/Sequencer.lean ====
section
/-! DEFINITION. The busy step of the latch timing FSM (42_line_fsm.md R161, R163). -/

namespace Sys2Proof.Machine

/-- The end of a phase: TICK restarts and the FSM moves on (R163). The codes that are no busy phase have no case in
R163; a cycle never comes here with one. -/
def endPhase (s : State) : State :=
  match s.fsm with
  | .setup => { s with tick := 0, fsm := .high }
  | .high =>
    if 0 < s.bit then { s with tick := 0, fsm := .setup, bit := s.bit - 1 }
    else if 0 < s.pos then { s with tick := 0, fsm := .setup, pos := s.pos - 1, bit := s.cfg.b - 1 }
    else { s with tick := 0, fsm := .lsetup }
  | .lsetup => { s with tick := 0, fsm := .lhigh }
  | .lhigh => { s with tick := 0, fsm := .idle }
  | .idle | .unused5 | .unused6 | .unused7 => { s with tick := 0 }

/-- `advance` of R163, R165: count the cycle, or end the phase after T_SHORT of them. -/
def advance (s : State) : State :=
  if s.tick < s.cfg.tShort - 1 then { s with tick := s.tick + 1 } else endPhase s

end Sys2Proof.Machine
end

