-- ==== Sys2Proof/Machine/Cycle.lean ====
section
/-! DEFINITION. One rising clock edge: the block's step function (42_line_fsm.md R165) and, beside it, the receivers and
the host. -/

namespace Sys2Proof.Machine

/-- `accept_t`: `rst = 0`, `cmd_valid = 1` and FSM = IDLE (30_encoding.md R84). -/
def accepts (inp : Inputs) (s : State) : Bool := !inp.rst && inp.cmdValid && cmdReady s

/-- The command on the port (30_encoding.md R80, R84). -/
def portInstr (inp : Inputs) (s : State) : Instr := decodeFields s.cfg.n inp.cmdOp inp.cmdData

/-- The block's step (R165): `rst` first; in IDLE the command on the port if there is one, and nothing otherwise; the
busy advance in the four busy phases. FSM codes 5 to 7 have no transition (log 7). -/
def blockCycle (inp : Inputs) (s : State) : Host.Outcome State Fault Refusal :=
  if inp.rst then .next (resetBlock s)
  else if cmdReady s then
    if inp.cmdValid then exec (portInstr inp s) s else .next s
  else if s.fsm.unused then .fault .unusedPhase
  else .next (advance s)

/-- What goes on outside the block at the same edge, from the lines of the cycle that ends: the receivers take their
step (42_line_fsm.md R180) and the host moves on (43_host_sequencer.md R201). `t` is the block after the edge. -/
def settle (s t : State) : State :=
  { t with
    rx := receiverStep s.cfg.nb (linesOf s) s.rx
    chip := chipStep s.cfg (portInputs s).rst s.fsm (linesOf s) s.chip
    host := hostNext s }

/-- One clock edge of the whole. -/
def cycle (s : State) : Host.Outcome State Fault Refusal :=
  match blockCycle (portInputs s) s with
  | .next t => .next (settle s t)
  | .fault f => .fault f
  | .refused r => .refused r

end Sys2Proof.Machine
end

