-- ==== Sys2Proof/Machine/Step.lean ====
section
/-! DEFINITION. The step of the machine: one rising edge of `clk` (00_scope.md R10). -/

namespace Sys2Proof.Machine

/-- `s_{t+1} = step(s_t, in_t)`, the inputs of the cycle being those its host drives (R10, R201). -/
def step (s : State) : Host.Outcome State Fault Refusal := cycle s

/-- `s` with the command word `w` presented on the port in this cycle, so that the next step accepts and runs it (logs
4, 5). -/
def State.withFetchWord (s : State) (nbits w : Nat) : State := presentWord (w % 2 ^ nbits) s

end Sys2Proof.Machine
end

