-- ==== Sys2Proof/Machine/Assembler.lean ====
section
/-! DEFINITION. The assembler: from text to the lines of a host program (30_encoding.md R87, R88). -/

namespace Sys2Proof.Machine

/-- The line of a command (R87). -/
def lineOf (i : Instr) : Line := .cmd (opOf i) (dataOf i)

/-- `LOAD c0, ..., c{N-1}`: lane p carries the p-th operand (R87). -/
def loadLine (operands : List Nat) : Line := lineOf (.load (operands.map (BitVec.ofNat 4)))

/-- The lines an assembler line stands for, the pseudo-instructions expanded: `SHOW` to LOAD then XFER, `BLANKALL` to
CLEAR then XFER (R88). -/
def linesFor : AsmLine → List Line
  | .nop => [lineOf .nop]
  | .load operands => [loadLine operands]
  | .clear => [lineOf .clear]
  | .xfer => [lineOf .xfer]
  | .blank => [lineOf .blank]
  | .clrerr => [lineOf .clrerr]
  | .raw op data => [.cmd (BitVec.ofNat 3 op) data]
  | .reset k => [.reset k]
  | .idle k => [.idle k]
  | .waitrdy => [.waitrdy]
  | .showDigits operands => [loadLine operands, lineOf .xfer]
  | .blankAll => [lineOf .clear, lineOf .xfer]

/-- One assembler line for a block of N positions (R87). -/
def assembleLine (n : Nat) (a : AsmLine) : Except AsmError (List Line) :=
  match a.check n with
  | .error e => .error e
  | .ok _ => .ok (linesFor a)

/-- A listing, line by line; the first bad line rejects it. -/
def assemble (n : Nat) : List AsmLine → Except AsmError (List Line)
  | [] => .ok []
  | a :: rest =>
    match assembleLine n a with
    | .error e => .error e
    | .ok lines =>
      match assemble n rest with
      | .error e => .error e
      | .ok more => .ok (lines ++ more)

/-! Reading text. Blanks and commas separate tokens; `;` starts a comment; a mnemonic is read without regard to case
(R87). The shape of numbers and the free use of commas are the model's choice (log 16). -/

/-- Whether a character separates tokens. -/
def isSeparator (c : Char) : Bool := c == ' ' || c == '\t' || c == ','

/-- The tokens of a line of text, its comment taken off. -/
def tokensOf (text : List Char) : List (List Char) :=
  let step (c : Char) (acc : List (List Char)) : List (List Char) :=
    if isSeparator c then [] :: acc
    else match acc with
      | [] => [[c]]
      | t :: ts => (c :: t) :: ts
  ((text.takeWhile (· != ';')).foldr step [[]]).filter (· != [])

/-- The value of a digit below `base`. -/
def digitValue (base : Nat) (c : Char) : Option Nat :=
  let v :=
    if '0' ≤ c && c ≤ '9' then c.toNat - '0'.toNat
    else if 'A' ≤ c && c ≤ 'F' then c.toNat - 'A'.toNat + 10
    else 16
  if v < base then some v else none

/-- Digits read from the left onto a value so far. -/
def numeralFrom (base acc : Nat) : List Char → Option Nat
  | [] => some acc
  | c :: rest =>
    match digitValue base c with
    | some v => numeralFrom base (acc * base + v) rest
    | none => none

/-- A decimal integer (R87). -/
def decimalOf : List Char → Option Nat
  | [] => none
  | c :: rest => numeralFrom 10 0 (c :: rest)

/-- A decimal integer, or a hexadecimal one after `0x`, as the listings of 95_test_vectors.md write `.cmd` data. -/
def integerOf : List Char → Option Nat
  | '0' :: 'X' :: c :: rest => numeralFrom 16 0 (c :: rest)
  | cs => decimalOf cs

/-- All operands, or nothing when one of them is no integer. -/
def operandsOf (read : List Char → Option Nat) : List (List Char) → Option (List Nat)
  | [] => some []
  | t :: ts =>
    match read t, operandsOf read ts with
    | some v, some vs => some (v :: vs)
    | _, _ => none

/-- A mnemonic that takes no operand. -/
def bare (a : AsmLine) (operands : List (List Char)) : Except AsmError (Option AsmLine) :=
  if operands.isEmpty then .ok (some a) else .error .badOperand

/-- A mnemonic that takes decimal operands. -/
def listed (a : List Nat → AsmLine) (operands : List (List Char)) : Except AsmError (Option AsmLine) :=
  match operandsOf decimalOf operands with
  | some vs => .ok (some (a vs))
  | none => .error .badOperand

/-- A directive that takes one count. -/
def counted (a : Nat → AsmLine) (operands : List (List Char)) : Except AsmError (Option AsmLine) :=
  match operandsOf decimalOf operands with
  | some [k] => .ok (some (a k))
  | _ => .error .badOperand

/-- One line of text; nothing for an empty line or a comment (R87, R88). -/
def parseLine (text : List Char) : Except AsmError (Option AsmLine) :=
  match tokensOf (text.map Char.toUpper) with
  | [] => .ok none
  | m :: operands =>
    if m = "NOP".toList then bare .nop operands
    else if m = "LOAD".toList then listed .load operands
    else if m = "CLEAR".toList then bare .clear operands
    else if m = "XFER".toList then bare .xfer operands
    else if m = "BLANK".toList then bare .blank operands
    else if m = "CLRERR".toList then bare .clrerr operands
    else if m = ".CMD".toList then
      match operandsOf integerOf operands with
      | some [op, data] => .ok (some (.raw op data))
      | _ => .error .badOperand
    else if m = "RESET".toList then counted .reset operands
    else if m = "IDLE".toList then counted .idle operands
    else if m = "WAITRDY".toList then bare .waitrdy operands
    else if m = "SHOW".toList then listed .showDigits operands
    else if m = "BLANKALL".toList then bare .blankAll operands
    else .error .unknownMnemonic

/-- A listing in text, for a block of N positions. -/
def assembleText (n : Nat) : List (List Char) → Except AsmError (List Line)
  | [] => .ok []
  | text :: rest =>
    match parseLine text with
    | .error e => .error e
    | .ok none => assembleText n rest
    | .ok (some a) =>
      match assembleLine n a with
      | .error e => .error e
      | .ok lines =>
        match assembleText n rest with
        | .error e => .error e
        | .ok more => .ok (lines ++ more)

end Sys2Proof.Machine
end

