-- ==== Sys2Proof/Safety.lean ====
section
/-! DEFINITION. The terms in which claims speak of runs: the invariants of 10_state.md R43, the shape of the receivers'
registers, runs without `rst`, the timeline of a transfer (42_line_fsm.md R167), and where the refresh loop makes
its stop check (43_host_sequencer.md R208). -/

namespace Sys2Proof.Machine

/-- The invariants of 10_state.md R43, and the length of DBUF (R30). -/
structure State.Inv (s : State) : Prop where
  /-- "Its length is N at all times" (R30). -/
  length : s.dbuf.length = s.cfg.n
  /-- R43 (i). -/
  cells : ∀ c ∈ s.dbuf, storable c = true
  /-- R43 (ii). -/
  pos_lt : s.pos < s.cfg.n
  bit_lt : s.bit < s.cfg.b
  tick_lt : s.tick < s.cfg.tShort
  /-- R43 (iii). -/
  idle_rest : s.fsm = .idle → s.pos = 0 ∧ s.bit = 0 ∧ s.tick = 0
  /-- R43 (iv). -/
  latch_rest : s.fsm = .lsetup ∨ s.fsm = .lhigh → s.pos = 0 ∧ s.bit = 0
  /-- R43 (v). -/
  used : s.fsm.unused = false

/-- A driver chip's SR and OUT have `len` stages (42_line_fsm.md R180). -/
structure Receiver.Shaped (len : Nat) (r : Receiver) : Prop where
  sr : r.sr.length = len
  out : r.out.length = len

/-- The reference receiver has N*B stages and the real chip as many as its chain. -/
structure State.ReceiversShaped (s : State) : Prop where
  rx : s.rx.Shaped s.cfg.nb
  chip : s.chip.regs.Shaped s.cfg.chainLength
  oldOut : s.chip.oldOut.length = s.cfg.chainLength

/-- `k` steps of the machine, stopping at the first that gives no next state. -/
def runFor : Nat → State → Host.Outcome State Fault Refusal
  | 0, s => .next s
  | k + 1, s =>
    match step s with
    | .next t => runFor k t
    | .fault f => .fault f
    | .refused r => .refused r

/-- The host drives `rst = 0` in the cycle of `s` and in the `k - 1` cycles after it. -/
def NoReset (k : Nat) (s : State) : Prop := ∀ j t, j < k → runFor j s = .next t → (portInputs t).rst = false

/-- The sequencing state (10_state.md R33). -/
structure Sequencing where
  fsm : Phase
  pos : Nat
  bit : Nat
  tick : Nat
deriving DecidableEq, Repr

def sequencingOf (s : State) : Sequencing := ⟨s.fsm, s.pos, s.bit, s.tick⟩

/-- Where a transfer stands `m` cycles after its first SETUP cycle: phase `j = m div T_SHORT` is the SETUP or the HIGH of
stream bit `j div 2` for `j < 2NB`, then LSETUP, then LHIGH, then IDLE (42_line_fsm.md R167). -/
def timeline (c : Config) (m : Nat) : Sequencing :=
  let j := m / c.tShort
  if j < 2 * c.nb then
    ⟨if j % 2 = 0 then .setup else .high, streamPos c (j / 2), streamBit c (j / 2), m % c.tShort⟩
  else if j = 2 * c.nb then ⟨.lsetup, 0, 0, m % c.tShort⟩
  else if j = 2 * c.nb + 1 then ⟨.lhigh, 0, 0, m % c.tShort⟩
  else ⟨.idle, 0, 0, 0⟩

/-- The refresh loop `h`, host of `s`, makes its stop check in the cycle of `s`: in Idle, which Startup enters once
`cmd_ready = 1`, or with no Waiting cycle left, which for T_LONG = 0 is the cycle the transfer has completed
(43_host_sequencer.md R204, R207 to R209). That the check takes no cycle of its own is log 12. -/
def AtStopCheck (s : State) (h : Refresh) : Prop :=
  h.phase = .idle ∨ h.phase = .waiting 0 ∨
  (cmdReady s = true ∧ (h.phase = .startupWait ∨ (h.phase = .transferWait ∧ s.cfg.tLong = 0)))

/-- The two receivers hold the same registers, and the chain is one the reference receiver describes (R241). -/
def State.ChipFollows (s : State) : Prop := s.cfg.chipFaithful = true ∧ s.chip.regs = s.rx

end Sys2Proof.Machine
end

