-- ==== Sys2Proof/Certificates/Slice0/Obligations.lean ====
section
/-! DEFINITION. What is claimed of the model. Each docstring names the rule of the spec it formalises. -/

open Sys2Proof Sys2Proof.Machine

/-! ## Encoding -/

/-- 30_encoding.md R80 to R83: every well-formed command, with every value of its lanes, comes back from its word. -/
def Obligations.DecodeEncodeRoundTrip : Prop :=
  ∀ (n : Nat) (i : Instr), i.wf n = true → decode n (encode i) = .ok i

/-- R82, R83: a word that decodes to a command has that command's op, a LOAD is the word of its lanes bit for bit, and the
command is well formed for the block. -/
def Obligations.DecodedWordIsItsEncoding : Prop :=
  ∀ (n w : Nat) (i : Instr), decode n w = .ok i →
    i.wf n = true ∧ opOf i = BitVec.ofNat 3 w ∧ (∀ lanes, i = .load lanes → encode i = w)

/-- R82: "Every one of the 8 values of `op` is listed; none is undefined." Every word of W_CMD bits is a command, and the
eight codes give the eight commands. That a number with no W_CMD-bit form does not decode is the model's choice (log
20). -/
def Obligations.EveryOpCodeIsListed : Prop :=
  (∀ n w : Nat, (∃ i, decode n w = .ok i) ↔ w < 2 ^ (4 * n + 3)) ∧
  (∀ n d : Nat,
    decodeFields n 0 d = .nop ∧ decodeFields n 1 d = .load (lanesOf n d) ∧ decodeFields n 2 d = .clear ∧
    decodeFields n 3 d = .xfer ∧ decodeFields n 4 d = .blank ∧ decodeFields n 5 d = .clrerr ∧
    decodeFields n 6 d = .rsvd6 ∧ decodeFields n 7 d = .rsvd7)

/-- Words of 30_encoding.md section 7, N = 4, written out bit by bit. -/
def Obligations.WorkedEncodingsDecode : Prop :=
  decode 4 0b0101100100000011001 = .ok (.load [3, 0, 9, 5]) ∧
  decode 4 0b0011001010100001001 = .ok (.load [1, 10, 2, 3]) ∧
  decode 4 0b0000000000000000000 = .ok .nop ∧
  decode 4 0b0000000000000000010 = .ok .clear ∧
  decode 4 0b0000000000000000011 = .ok .xfer ∧
  decode 4 0b0000000000000000100 = .ok .blank ∧
  decode 4 0b0000000000000000101 = .ok .clrerr ∧
  decode 4 0b0000000000000000110 = .ok .rsvd6 ∧
  decode 4 0b0001001000110100111 = .ok .rsvd7

/-- R83: the operand of LOAD is `lane(p) = cmd_data[4p+3:4p]`, and every other code gives one command whatever the data. -/
def Obligations.LoadLanesAreTheDataBits : Prop :=
  (∀ n d p b : Nat, p < n → b < 4 →
    ∃ c, (lanesOf n d)[p]? = some c ∧ c.getLsbD b = d.testBit (4 * p + b)) ∧
  (∀ n d : Nat, (lanesOf n d).length = n) ∧
  (∀ (n d d' : Nat) (op : OpCode), op ≠ 1 → decodeFields n op d = decodeFields n op d')

/-- 10_state.md R40, 20_memory.md R63 (a): `dbuf_q[4p+3:4p] = DBUF[p]` for every p, and it has no other bit. -/
def Obligations.DbufQShowsEveryCell : Prop :=
  ∀ s : State,
    (∀ (p b : Nat) (c : Code), s.dbuf[p]? = some c → b < 4 → (dbufQ s).testBit (4 * p + b) = c.getLsbD b) ∧
    dbufQ s < 2 ^ (4 * s.dbuf.length)

/-! ## The commands -/

/-- 40_buffer_commands.md R100: op 0 with any data is NOP; no field changes; presented while busy it changes nothing
either. -/
def Obligations.NopChangesNothing : Prop :=
  (∀ n d, decodeFields n 0 d = .nop) ∧
  (∀ s, exec .nop s = .next s) ∧
  (∀ s data, s.fsm ≠ .idle → blockCycle (commandInputs 0 data) s = blockCycle quietInputs s)

/-- R101, R102, R103: op 1 is LOAD of the N lanes; with every lane at most 9 all cells are written at once and nothing
else changes; with some lane above 9, wherever it stands, ERR_DIGIT is set and nothing else changes. -/
def Obligations.LoadWritesAllCellsOrRaises : Prop :=
  (∀ n d, decodeFields n 1 d = .load (lanesOf n d) ∧ (lanesOf n d).length = n) ∧
  ∀ (lanes : List Code) (s : State),
    ((∀ c ∈ lanes, c.toNat ≤ 9) → exec (.load lanes) s = .next { s with dbuf := lanes }) ∧
    ((∃ c ∈ lanes, 9 < c.toNat) → exec (.load lanes) s = .next { s with errDigit := true })

/-- R104: op 2 with any data is CLEAR; every position takes BLANK, and nothing else changes. -/
def Obligations.ClearBlanksEveryCell : Prop :=
  (∀ n d, decodeFields n 2 d = .clear) ∧
  ∀ s, exec .clear s = .next { s with dbuf := List.replicate s.cfg.n 15#4 }

/-- R106: op 5 with any data is CLRERR; both flags are cleared, and nothing else changes. -/
def Obligations.ClrerrLowersBothFlags : Prop :=
  (∀ n d, decodeFields n 5 d = .clrerr) ∧
  ∀ s, exec .clrerr s = .next { s with errDigit := false, errOp := false }

/-- R108: op 6 and op 7 with any data are the reserved codes; both set ERR_OP and change nothing else; presented while
busy they change nothing. -/
def Obligations.ReservedCodesRaiseIllegalCommand : Prop :=
  (∀ n d, decodeFields n 6 d = .rsvd6 ∧ decodeFields n 7 d = .rsvd7) ∧
  (∀ s, exec .rsvd6 s = .next { s with errOp := true } ∧ exec .rsvd7 s = .next { s with errOp := true }) ∧
  (∀ s data, s.fsm ≠ .idle →
    blockCycle (commandInputs 6 data) s = blockCycle quietInputs s ∧
    blockCycle (commandInputs 7 data) s = blockCycle quietInputs s)

/-- 41_transfer_commands.md R134, its pseudocode at the accepting edge: XFER starts the FSM with SRC = 0. -/
def Obligations.XferStartsTheSequencer : Prop :=
  ∀ s, exec .xfer s =
    .next { s with src := false, fsm := .setup, pos := s.cfg.n - 1, bit := s.cfg.b - 1, tick := 0 }

/-- 41_transfer_commands.md R135, its pseudocode at the accepting edge: BLANK starts the FSM with SRC = 1, DBUF not
written. -/
def Obligations.BlankStartsTheSequencer : Prop :=
  ∀ s, exec .blank s =
    .next { s with src := true, fsm := .setup, pos := s.cfg.n - 1, bit := s.cfg.b - 1, tick := 0 }

/-- The frames of the two families. 40_buffer_commands.md preamble: its commands leave FSM, POS, BIT, TICK and SRC, and
with them the lines; R134, R135: the transfer commands leave DBUF and the flags. No command touches the receivers, the
host or the parameters. -/
def Obligations.CommandFrames : Prop :=
  ∀ (i : Instr) (s t : State), exec i s = .next t →
    (t.cfg = s.cfg ∧ t.rx = s.rx ∧ t.chip = s.chip ∧ t.host = s.host) ∧
    (i ≠ .xfer → i ≠ .blank → sequencingOf t = sequencingOf s ∧ t.src = s.src) ∧
    (i = .xfer ∨ i = .blank → t.dbuf = s.dbuf ∧ t.errDigit = s.errDigit ∧ t.errOp = s.errOp)

/-- 42_line_fsm.md R165, 60_exceptions.md R239: every command has an effect in every state; none traps or stops. -/
def Obligations.EveryCommandCompletes : Prop :=
  ∀ (i : Instr) (s : State), ∃ t, exec i s = .next t

/-! ## One clock edge -/

/-- When the wires of the port carry the command i and it is accepted, a step is `exec i`, with the receivers' step of
the cycle and the host moved on beside it (30_encoding.md R84, 42_line_fsm.md R165, R180). -/
def Obligations.StepRunsTheAcceptedCommand : Prop :=
  ∀ (s t : State) (i : Instr),
    (portInputs s).rst = false → (portInputs s).cmdValid = true → s.fsm = .idle →
    decodeFields s.cfg.n (portInputs s).cmdOp (portInputs s).cmdData = i → exec i s = .next t →
    step s = .next
      { t with
        rx := receiverStep (s.cfg.n * s.cfg.b) ⟨serData s, serClk s, serLatch s⟩ s.rx
        chip := chipStep s.cfg (portInputs s).rst s.fsm ⟨serData s, serClk s, serLatch s⟩ s.chip
        host := hostNext s }

/-- A word placed by `withFetchWord` is the command the very next step runs, in an idle block and in a busy one (logs 4,
5: the model's own way to place a command). -/
def Obligations.PlacedWordRunsNext : Prop :=
  ∀ (s : State) (nbits w : Nat) (i : Instr),
    decode s.cfg.n w = .ok i → w < 2 ^ nbits →
    ∃ t, exec i (s.withFetchWord nbits w) = .next t ∧
      step (s.withFetchWord nbits w) = .next (settle (s.withFetchWord nbits w) t) ∧
      (s.fsm = .idle → { s.withFetchWord nbits w with host := s.host } = s)

/-- 30_encoding.md R84: a command is accepted exactly when `rst = 0`, `cmd_valid = 1` and FSM = IDLE; a command that is
not accepted has no effect at all. -/
def Obligations.AcceptanceRule : Prop :=
  ∀ (inp : Inputs) (s : State),
    (accepts inp s = true ↔ inp.rst = false ∧ inp.cmdValid = true ∧ s.fsm = .idle) ∧
    (cmdReady s = true ↔ s.fsm = .idle) ∧
    (accepts inp s = true → blockCycle inp s = exec (decodeFields s.cfg.n inp.cmdOp inp.cmdData) s) ∧
    (accepts inp s = false → ∀ valid op data, (valid = true → s.fsm ≠ .idle ∨ inp.rst = true) →
      blockCycle inp s = blockCycle ⟨inp.rst, valid, op, data⟩ s)

/-- 42_line_fsm.md R162, 60_exceptions.md R244: in IDLE without `rst`, the command if there is one, and no change of the
block if there is none. -/
def Obligations.IdleStep : Prop :=
  ∀ (inp : Inputs) (s : State), s.fsm = .idle → inp.rst = false →
    (inp.cmdValid = true → blockCycle inp s = exec (decodeFields s.cfg.n inp.cmdOp inp.cmdData) s) ∧
    (inp.cmdValid = false → blockCycle inp s = .next s)

/-- 42_line_fsm.md R163: the busy step, whatever the command inputs. -/
def Obligations.BusyStep : Prop :=
  ∀ (inp : Inputs) (s : State), inp.rst = false →
    (s.fsm = .setup ∨ s.fsm = .high ∨ s.fsm = .lsetup ∨ s.fsm = .lhigh) →
    (s.tick < s.cfg.tShort - 1 → blockCycle inp s = .next { s with tick := s.tick + 1 }) ∧
    (¬ s.tick < s.cfg.tShort - 1 →
      (s.fsm = .setup → blockCycle inp s = .next { s with tick := 0, fsm := .high }) ∧
      (s.fsm = .high → 0 < s.bit → blockCycle inp s = .next { s with tick := 0, fsm := .setup, bit := s.bit - 1 }) ∧
      (s.fsm = .high → s.bit = 0 → 0 < s.pos →
        blockCycle inp s = .next { s with tick := 0, fsm := .setup, pos := s.pos - 1, bit := s.cfg.b - 1 }) ∧
      (s.fsm = .high → s.bit = 0 → s.pos = 0 → blockCycle inp s = .next { s with tick := 0, fsm := .lsetup }) ∧
      (s.fsm = .lsetup → blockCycle inp s = .next { s with tick := 0, fsm := .lhigh }) ∧
      (s.fsm = .lhigh → blockCycle inp s = .next { s with tick := 0, fsm := .idle }))

/-- 70_reset_and_hazards.md R260, 60_exceptions.md R235: a reset edge gives the reset state from any current state,
whatever the other inputs, a command presented with it included. -/
def Obligations.ResetFromAnyState : Prop :=
  ∀ s : State, (portInputs s).rst = true → ∃ t, step s = .next t ∧ t.cfg = s.cfg ∧
    t.dbuf = List.replicate s.cfg.n 15#4 ∧ t.fsm = .idle ∧ t.pos = 0 ∧ t.bit = 0 ∧ t.tick = 0 ∧
    t.src = false ∧ t.errDigit = false ∧ t.errOp = false

/-- 10_state.md R40, R44: what each output port shows in every state; and the reset values, with the outputs that follow from
them, for every block and for `State.reset` (whose parameters are the model's choice, log 2). -/
def Obligations.ResetStateAndOutputs : Prop :=
  (∀ s : State,
    ((outputsOf s).cmdReady = true ↔ s.fsm = .idle) ∧ ((outputsOf s).busy = true ↔ s.fsm ≠ .idle) ∧
    (outputsOf s).errDigit = s.errDigit ∧ (outputsOf s).errOp = s.errOp ∧
    (outputsOf s).dbufQ = dbufQ s ∧ (outputsOf s).lines = linesOf s) ∧
  ∀ c : Config, ∀ s ∈ [State.resetFor c, State.reset],
    s.dbuf = List.replicate s.cfg.n 15#4 ∧ sequencingOf s = ⟨.idle, 0, 0, 0⟩ ∧
    s.src = false ∧ s.errDigit = false ∧ s.errOp = false ∧
    outputsOf s =
      { cmdReady := true, busy := false, errDigit := false, errOp := false, dbufQ := 2 ^ (4 * s.cfg.n) - 1,
        lines := ⟨false, false, false⟩ }

/-- 60_exceptions.md R231, R232, R236, R237: cause 1 is reported by bit 0 of the status vector, `err_digit`, and cause 2 by
bit 1, `err_op`; an error sets its bit and no other; errors do not nest, and CLRERR lowers both bits. -/
def Obligations.ErrorReporting : Prop :=
  (Cause.invalidDigitValue.code = 1 ∧ Cause.illegalCommand.code = 2) ∧
  (Cause.invalidDigitValue.statusBit = 0 ∧ Cause.illegalCommand.statusBit = 1) ∧
  (∀ s : State, (statusVector s).getLsbD 0 = s.errDigit ∧ (statusVector s).getLsbD 1 = s.errOp) ∧
  (∀ (c : Cause) (s : State),
    (statusVector (raiseError c s)).getLsbD c.statusBit = true ∧
    (∀ b, b ≠ c.statusBit → (statusVector (raiseError c s)).getLsbD b = (statusVector s).getLsbD b) ∧
    raiseError c (raiseError c s) = raiseError c s) ∧
  (∀ s : State, statusVector (clearErrors s) = 0#2)

/-! ## The whole machine -/

/-- 10_state.md R30, 20_memory.md R66: in one step `rst` and an accepted CLEAR make every cell BLANK; an accepted LOAD writes
its N lanes if all are valid and none of them otherwise; nothing else writes DBUF, and no mixture arises. -/
def Obligations.DbufChangesOnlyAsAWhole : Prop :=
  ∀ s t : State, step s = .next t →
    ((portInputs s).rst = true → t.dbuf = List.replicate s.cfg.n 15#4) ∧
    (accepts (portInputs s) s = true → portInstr (portInputs s) s = .clear →
      t.dbuf = List.replicate s.cfg.n 15#4) ∧
    (∀ lanes, accepts (portInputs s) s = true → portInstr (portInputs s) s = .load lanes →
      lanes.length = s.cfg.n ∧
      ((∀ c ∈ lanes, c.toNat ≤ 9) → t.dbuf = lanes) ∧
      ((∃ c ∈ lanes, 9 < c.toNat) → t.dbuf = s.dbuf)) ∧
    ((portInputs s).rst = false →
      ¬ (accepts (portInputs s) s = true ∧
          (portInstr (portInputs s) s = .clear ∨ ∃ lanes, portInstr (portInputs s) s = .load lanes)) →
      t.dbuf = s.dbuf)

/-- 10_state.md R36, R37: ERR_DIGIT rises only with a LOAD that carries a lane outside 0..9 and falls only with CLRERR or
reset; ERR_OP rises only with a reserved code and falls only with CLRERR or reset. -/
def Obligations.FlagsRiseAndFall : Prop :=
  ∀ s t : State, step s = .next t →
    (s.errDigit = false → (t.errDigit = true ↔
      accepts (portInputs s) s = true ∧
        ∃ lanes, portInstr (portInputs s) s = .load lanes ∧ ∃ c ∈ lanes, 9 < c.toNat)) ∧
    (s.errDigit = true → (t.errDigit = false ↔
      (portInputs s).rst = true ∨ (accepts (portInputs s) s = true ∧ portInstr (portInputs s) s = .clrerr))) ∧
    (s.errOp = false → (t.errOp = true ↔
      accepts (portInputs s) s = true ∧
        (portInstr (portInputs s) s = .rsvd6 ∨ portInstr (portInputs s) s = .rsvd7))) ∧
    (s.errOp = true → (t.errOp = false ↔
      (portInputs s).rst = true ∨ (accepts (portInputs s) s = true ∧ portInstr (portInputs s) s = .clrerr)))

/-- 10_state.md R34, R44: SRC is 0 after an accepted XFER (R34) and after reset (R44), 1 after an accepted BLANK, and keeps
its value in every other step. That it keeps it after a transfer ends is log 19 (R34's "nothing else writes SRC"; U23 lets
a model keep it or not). -/
def Obligations.SrcWrittenOnlyByTransfers : Prop :=
  ∀ s t : State, step s = .next t →
    ((portInputs s).rst = true → t.src = false) ∧
    (accepts (portInputs s) s = true → portInstr (portInputs s) s = .xfer → t.src = false) ∧
    (accepts (portInputs s) s = true → portInstr (portInputs s) s = .blank → t.src = true) ∧
    ((portInputs s).rst = false →
      ¬ (accepts (portInputs s) s = true ∧
          (portInstr (portInputs s) s = .xfer ∨ portInstr (portInputs s) s = .blank)) →
      t.src = s.src)

/-- 10_state.md R38: no command reads a flag. Two states that differ in the flags alone, given the same inputs, step to
states that differ in the flags alone. -/
def Obligations.FlagsDecideNothing : Prop :=
  ∀ (inp : Inputs) (s t : State) (e o : Bool), blockCycle inp s = .next t →
    ∃ e' o', blockCycle inp { s with errDigit := e, errOp := o } = .next { t with errDigit := e', errOp := o' }

/-- 42_line_fsm.md R183: nothing comes back from the receiver. Whatever the two receivers hold, the block and the host run
alike, for any number of steps. -/
def Obligations.ReceiversFeedNothingBack : Prop :=
  ∀ (k : Nat) (s t : State) (r : Receiver) (c : Chip), runFor k s = .next t →
    ∃ r' c', runFor k { s with rx := r, chip := c } = .next { t with rx := r', chip := c' }

/-- 00_scope.md R5: the parameters are fixed for the lifetime of the hardware. -/
def Obligations.ParametersNeverChange : Prop :=
  ∀ (k : Nat) (s t : State), runFor k s = .next t → t.cfg = s.cfg

/-- 42_line_fsm.md R165: the step is total on every state that satisfies 10_state.md R43, for every input. -/
def Obligations.StepIsTotal : Prop :=
  ∀ s : State, s.Inv → ∃ t, step s = .next t

/-- When the model stops (log 7, the model's choice for the codes of 93_implementation_defined.md U18): a step faults
exactly in a cycle without `rst` whose FSM holds 5, 6 or 7, and is never refused. -/
def Obligations.StopsExactlyOnUnusedPhases : Prop :=
  ∀ s : State,
    ((∃ f, step s = .fault f) ↔
      (portInputs s).rst = false ∧ (s.fsm = .unused5 ∨ s.fsm = .unused6 ∨ s.fsm = .unused7)) ∧
    ∀ r, step s ≠ .refused r

/-- 10_state.md R43, at the reset values: the invariants hold in `State.reset` and in every block after reset. -/
def Obligations.InvariantsHoldAtReset : Prop :=
  State.reset.Inv ∧ (∀ c, (State.resetFor c).Inv) ∧ (∀ c, (State.resetFor c).ReceiversShaped)

/-- 10_state.md R43, 70_reset_and_hazards.md R261: from any state at all, a reset edge establishes the invariants. -/
def Obligations.ResetEstablishesInvariants : Prop :=
  ∀ s t : State, (portInputs s).rst = true → step s = .next t → t.Inv

/-- 10_state.md R43: every step keeps the invariants, whatever the host drives. -/
def Obligations.StepKeepsInvariants : Prop :=
  ∀ s t : State, s.Inv → step s = .next t → t.Inv

/-- 42_line_fsm.md R180: every step keeps the receivers at their lengths. -/
def Obligations.StepKeepsReceiverLengths : Prop :=
  ∀ s t : State, s.ReceiversShaped → step s = .next t → t.ReceiversShaped

/-- 42_line_fsm.md R166, 00_scope.md R5: the counters fit the widths W_POS, W_BIT and W_TICK. -/
def Obligations.CounterWidthsSuffice : Prop :=
  ∀ s : State, s.Inv → s.pos < 2 ^ s.cfg.wPos ∧ s.bit < 2 ^ s.cfg.wBit ∧ s.tick < 2 ^ s.cfg.wTick

/-! ## A transfer, cycle by cycle -/

/-- 42_line_fsm.md R167: from the first SETUP cycle on, without `rst`, the FSM goes through the timeline whatever the host
presents; it is busy for exactly (2NB+2)*T_SHORT cycles, and DBUF, SRC and the flags stay. -/
def Obligations.TransferTimeline : Prop :=
  ∀ (s : State) (m : Nat),
    sequencingOf s = ⟨.setup, s.cfg.n - 1, s.cfg.b - 1, 0⟩ →
    m ≤ (2 * (s.cfg.n * s.cfg.b) + 2) * s.cfg.tShort → NoReset m s →
    ∃ t, runFor m s = .next t ∧ sequencingOf t = timeline s.cfg m ∧
      (busy t = true ↔ m < (2 * (s.cfg.n * s.cfg.b) + 2) * s.cfg.tShort) ∧
      t.dbuf = s.dbuf ∧ t.src = s.src ∧ t.errDigit = s.errDigit ∧ t.errOp = s.errOp

/-- 30_encoding.md R85: from any state that satisfies R43, without `rst`, `cmd_ready = 1` comes after at most
(2NB+2)*T_SHORT cycles. -/
def Obligations.ReadyWithinTheBound : Prop :=
  ∀ s : State, s.Inv → NoReset ((2 * (s.cfg.n * s.cfg.b) + 2) * s.cfg.tShort) s →
    ∃ k t, k ≤ (2 * (s.cfg.n * s.cfg.b) + 2) * s.cfg.tShort ∧ runFor k s = .next t ∧ cmdReady t = true

/-- 30_encoding.md R85, 43_host_sequencer.md R211: a command line of a host program is held, neither lost nor changed,
and is accepted at most (2NB+2)*T_SHORT cycles after it is first presented. -/
def Obligations.HeldCommandIsAccepted : Prop :=
  ∀ (s : State) (op : OpCode) (data : Nat) (rest : List Line),
    s.Inv → s.host = .program (.cmd op data :: rest) →
    ∃ k t, k ≤ (2 * (s.cfg.n * s.cfg.b) + 2) * s.cfg.tShort ∧ runFor k s = .next t ∧
      accepts (portInputs t) t = true ∧ portInstr (portInputs t) t = decodeFields s.cfg.n op data ∧
      hostNext t = .program rest

/-- 41_transfer_commands.md R132, 42_line_fsm.md R170, R171 (d): stream bit k stands on SER_DATA through its SETUP and
its HIGH, SER_CLK is 1 in the second half alone, and SER_LATCH is 0. -/
def Obligations.BitstreamOnTheLines : Prop :=
  ∀ (s t : State) (k m : Nat),
    sequencingOf s = ⟨.setup, s.cfg.n - 1, s.cfg.b - 1, 0⟩ → k < s.cfg.n * s.cfg.b →
    2 * k * s.cfg.tShort ≤ m → m < (2 * k + 2) * s.cfg.tShort → NoReset m s → runFor m s = .next t →
    serData t = patternBit s.cfg (codeAt s (s.cfg.n - 1 - k / s.cfg.b)) (s.cfg.b - 1 - k % s.cfg.b) ∧
    serClk t = decide ((2 * k + 1) * s.cfg.tShort ≤ m) ∧ serLatch t = false

/-- 42_line_fsm.md R171 (a) to (c): SER_CLK rises exactly at the starts of the N*B HIGH phases, and SER_LATCH rises
exactly once, (2NB+1)*T_SHORT cycles after the transfer began. -/
def Obligations.RisingEdgesOfATransfer : Prop :=
  ∀ (s t u : State) (m : Nat),
    sequencingOf s = ⟨.setup, s.cfg.n - 1, s.cfg.b - 1, 0⟩ →
    m < (2 * (s.cfg.n * s.cfg.b) + 2) * s.cfg.tShort → NoReset (m + 1) s →
    runFor m s = .next t → runFor (m + 1) s = .next u →
    ((serClk t = false ∧ serClk u = true) ↔
      ∃ k, k < s.cfg.n * s.cfg.b ∧ m + 1 = (2 * k + 1) * s.cfg.tShort) ∧
    ((serLatch t = false ∧ serLatch u = true) ↔ m + 1 = (2 * (s.cfg.n * s.cfg.b) + 1) * s.cfg.tShort)

/-- 41_transfer_commands.md R133: two transfers of the same codes in equal blocks put the same levels on the lines in every
cycle, whatever else differs (the flags, the receivers, the host). -/
def Obligations.SameCodesSameTrace : Prop :=
  ∀ (s s' t t' : State) (m : Nat),
    s.cfg = s'.cfg → (∀ p, p < s.cfg.n → codeAt s p = codeAt s' p) →
    sequencingOf s = ⟨.setup, s.cfg.n - 1, s.cfg.b - 1, 0⟩ → sequencingOf s' = sequencingOf s →
    m ≤ (2 * (s.cfg.n * s.cfg.b) + 2) * s.cfg.tShort → NoReset m s → NoReset m s' →
    runFor m s = .next t → runFor m s' = .next t' → linesOf t = linesOf t'

/-- 42_line_fsm.md R182: let a transfer be accepted in the cycle of `s` and run without `rst`. OUT is unchanged until the
first LHIGH cycle, (2NB+1)*T_SHORT cycles after the accepting edge, and from that cycle on
OUT[p*B + b] = ENC(c(p))[b] for every position and bit, with c(p) = DBUF[p] for XFER and BLANK for BLANK, whatever the
receiver held before. -/
def Obligations.CompleteTransferIsDisplayed : Prop :=
  ∀ (s t : State) (m : Nat),
    s.Inv → s.rx.Shaped (s.cfg.n * s.cfg.b) → accepts (portInputs s) s = true →
    (portInstr (portInputs s) s = .xfer ∨ portInstr (portInputs s) s = .blank) →
    m ≤ (2 * (s.cfg.n * s.cfg.b) + 2) * s.cfg.tShort → NoReset (m + 1) s → runFor (m + 1) s = .next t →
    (m < (2 * (s.cfg.n * s.cfg.b) + 1) * s.cfg.tShort → displayed t = s.rx.out) ∧
    ((2 * (s.cfg.n * s.cfg.b) + 1) * s.cfg.tShort ≤ m →
      ∀ p b c, s.dbuf[p]? = some c → b < s.cfg.b →
        (displayed t)[p * s.cfg.b + b]? =
          some (patternBit s.cfg (if portInstr (portInputs s) s = .blank then 15#4 else c) b))

/-! ## The lines, the receiver and the real chip -/

/-- 41_transfer_commands.md R130, 00_scope.md R5: the patterns are the parameter table, entry d for the digit d and entry 10
for BLANK; the two tables of R6, as values of that parameter, give the bits R6 says. -/
def Obligations.PatternsAreTheTable : Prop :=
  (∀ (cfg : Config) (d b : Nat) (h : d < 10), b < cfg.b →
    patternBit cfg (BitVec.ofNat 4 d) b = (cfg.enc[d]).getLsbD b) ∧
  (∀ (cfg : Config) (b : Nat), b < cfg.b → patternBit cfg 15#4 b = (cfg.enc[10]).getLsbD b) ∧
  (∀ (d : Nat) (h : d < 10), Config.bcd4Table[d] = BitVec.ofNat 4 d ∧ Config.onehot10Table[d] = 1#10 <<< d) ∧
  Config.bcd4Table[10] = 0b1111#4 ∧ Config.onehot10Table[10] = 0#10

/-- 42_line_fsm.md R170, with code(p) of 41_transfer_commands.md R131: the levels of the three lines in each phase, and for
the codes of FSM that are no phase. -/
def Obligations.LineLevelsByPhase : Prop :=
  ∀ s : State,
    (s.fsm = .idle → linesOf s = ⟨false, false, false⟩) ∧
    (∀ c, (s.src = true ∧ c = 15#4) ∨ (s.src = false ∧ s.dbuf[s.pos]? = some c) →
      (s.fsm = .setup → linesOf s = ⟨patternBit s.cfg c s.bit, false, false⟩) ∧
      (s.fsm = .high → linesOf s = ⟨patternBit s.cfg c s.bit, true, false⟩)) ∧
    (s.fsm = .lsetup → linesOf s = ⟨false, false, false⟩) ∧
    (s.fsm = .lhigh → linesOf s = ⟨false, false, true⟩) ∧
    (s.fsm.unused = true → linesOf s = ⟨false, false, false⟩)

/-- 42_line_fsm.md R180: a rise of SER_CLK puts SER_DATA into stage 0 and moves stage i to stage i+1, the last bit lost; no
rise leaves SR; a rise of SER_LATCH copies all stages of SR, as the shift leaves it, to OUT; no rise leaves OUT. Tube p shows the stages p*B to p*B + B-1 of OUT. -/
def Obligations.ReferenceReceiverStep : Prop :=
  (∀ (cfg : Config) (out : List Bool) (p b : Nat), b < cfg.b → (tubePattern cfg out p)[b]? = out[p * cfg.b + b]?) ∧
  ∀ (len : Nat) (l : Lines) (r : Receiver), r.Shaped len → 1 ≤ len →
    (l.clk = true → r.prevClk = false →
      (receiverStep len l r).sr[0]? = some l.data ∧
      ∀ i, i + 1 < len → (receiverStep len l r).sr[i + 1]? = r.sr[i]?) ∧
    (¬ (l.clk = true ∧ r.prevClk = false) → (receiverStep len l r).sr = r.sr) ∧
    (l.latch = true → r.prevLatch = false → (receiverStep len l r).out = (receiverStep len l r).sr) ∧
    (¬ (l.latch = true ∧ r.prevLatch = false) → (receiverStep len l r).out = r.out) ∧
    (receiverStep len l r).Shaped len ∧ (receiverStep len l r).prevClk = l.clk ∧ (receiverStep len l r).prevLatch = l.latch

/-- 42_line_fsm.md R171 (f): SER_CLK and SER_LATCH are never 1 in the same cycle. -/
def Obligations.ClockAndLatchNeverTogether : Prop :=
  ∀ s : State, ¬ (serClk s = true ∧ serLatch s = true)

/-- 42_line_fsm.md R171 (g): SER_DATA does not change at an edge where SER_CLK rises. -/
def Obligations.DataStableAtClockRise : Prop :=
  ∀ s t : State, step s = .next t → serClk s = false → serClk t = true → serData t = serData s

/-- 20_memory.md R67: the receiver's OUT changes only where SER_LATCH rises, and then takes all of SR at once. -/
def Obligations.DisplayChangesOnlyAtLatchRise : Prop :=
  ∀ s t : State, step s = .next t →
    (¬ (serLatch s = true ∧ s.rx.prevLatch = false) → t.rx.out = s.rx.out) ∧
    (serLatch s = true ∧ s.rx.prevLatch = false → t.rx.out = t.rx.sr)

/-- 70_reset_and_hazards.md R262: after a reset edge the three lines are 0 and no latch pulse follows from it; the display
is what it was in the reset cycle, which before LHIGH is the pattern held before. -/
def Obligations.ResetCutsATransfer : Prop :=
  ∀ s t : State, (portInputs s).rst = true → step s = .next t →
    linesOf t = ⟨false, false, false⟩ ∧ displayed t = displayed s ∧ (s.fsm ≠ .lhigh → displayed s = s.rx.out)

/-- 70_reset_and_hazards.md R267: on a platform that meets R266, a reset that cuts a transfer leaves the real chip's OUT
unchanged before LHIGH, and within LHIGH either the old or the new pattern. The old pattern is the one OUT held when the
latch last rose: every step in which it rises stores it, and no other step changes it (log 11, the model's own field). -/
def Obligations.RealChipAfterResetCut : Prop :=
  ∀ s t : State, step s = .next t →
    (serLatch s = true → s.chip.regs.prevLatch = false → t.chip.oldOut = s.chip.regs.out) ∧
    (¬ (serLatch s = true ∧ s.chip.regs.prevLatch = false) → t.chip.oldOut = s.chip.oldOut) ∧
    t.chip.regs.prevLatch = serLatch s ∧
    (s.cfg.chipFaithful = true → (portInputs s).rst = true →
      (s.fsm ≠ .lhigh → t.chip.regs.out = s.chip.regs.out) ∧
      (s.fsm = .lhigh →
        t.chip.regs.out = (if s.chip.regs.prevLatch then s.chip.oldOut else s.chip.regs.out) ∨
        t.chip.regs.out = (receiverStep s.cfg.chainLength (linesOf s) s.chip.regs).out))

/-- The model's choice, log 11: a real chip on a platform that meets 70_reset_and_hazards.md R266, with N*B stages, keeps with
the reference receiver in every step in which no reset cuts a transfer. The spec leaves that to the platform: "A real
chip's faithfulness to it is an assumption of the platform" (42_line_fsm.md R183). -/
def Obligations.RealChipFollowsReference : Prop :=
  ∀ s t : State, s.ChipFollows → step s = .next t → ((portInputs s).rst = true → s.fsm = .idle) → t.ChipFollows

/-! ## The host -/

/-- 43_host_sequencer.md R211: what each kind of line drives, and when the next line starts. `RESET k` and `IDLE k` count
down one cycle at a time, and with no cycle left take none (log 15): the next line starts in that very cycle. -/
def Obligations.ProgramLinesDriveThePort : Prop :=
  ∀ (s : State) (rest : List Line),
    (∀ op data, s.host = .program (.cmd op data :: rest) →
      portInputs s = ⟨false, true, op, data⟩ ∧
      hostNext s = .program (if accepts (portInputs s) s then rest else .cmd op data :: rest)) ∧
    (∀ k, s.host = .program (.reset (k + 1) :: rest) →
      (portInputs s).rst = true ∧ (portInputs s).cmdValid = false ∧ hostNext s = .program (.reset k :: rest)) ∧
    (s.host = .program (.reset 0 :: rest) → driverStep s = driverStep { s with host := .program rest }) ∧
    (∀ k, s.host = .program (.idle (k + 1) :: rest) →
      (portInputs s).rst = false ∧ (portInputs s).cmdValid = false ∧ hostNext s = .program (.idle k :: rest)) ∧
    (s.host = .program (.idle 0 :: rest) → driverStep s = driverStep { s with host := .program rest }) ∧
    (s.host = .program (.waitrdy :: rest) → cmdReady s = false →
      (portInputs s).rst = false ∧ (portInputs s).cmdValid = false ∧ hostNext s = s.host) ∧
    (s.host = .program (.waitrdy :: rest) → cmdReady s = true →
      driverStep s = driverStep { s with host := .program rest }) ∧
    (s.host = .program [] → (portInputs s).rst = false ∧ (portInputs s).cmdValid = false ∧ hostNext s = s.host)

/-- 43_host_sequencer.md R211: the end of the run. A line after the last one would start in the current cycle exactly when
every line left takes no cycle; the host then drives `rst = 0` and `cmd_valid = 0` for ever; the run has ended when, besides,
FSM = IDLE; that comes, for the first time, within the longest transfer, and from then on the block stays as it is. That
`cmd_op` and `cmd_data` are 0 where `cmd_valid = 0`, which `quietInputs` says too, is the model's choice (log 23), and that
RESET and IDLE with no cycle left take none is log 15. -/
def Obligations.EndOfTheRun : Prop :=
  (∀ (ready : Bool) (rest : List Line),
    programDone ready [] = true ∧
    (∀ op data, programDone ready (.cmd op data :: rest) = false) ∧
    (∀ k, programDone ready (.reset (k + 1) :: rest) = false ∧ programDone ready (.idle (k + 1) :: rest) = false) ∧
    programDone ready (.reset 0 :: rest) = programDone ready rest ∧
    programDone ready (.idle 0 :: rest) = programDone ready rest ∧
    programDone ready (.waitrdy :: rest) = (ready && programDone ready rest)) ∧
  (∀ (s : State) (lines : List Line), s.host = .program lines →
    (runEnded s = true ↔ programDone (cmdReady s) lines = true ∧ s.fsm = .idle) ∧
    (programDone (cmdReady s) lines = true → portInputs s = quietInputs ∧ hostNext s = .program []) ∧
    (runEnded s = true →
      ∃ t, step s = .next t ∧ runEnded t = true ∧ t.dbuf = s.dbuf ∧ sequencingOf t = sequencingOf s ∧ t.src = s.src ∧
        t.errDigit = s.errDigit ∧ t.errOp = s.errOp) ∧
    (s.Inv → programDone (cmdReady s) lines = true →
      ∃ k t, k ≤ (2 * (s.cfg.n * s.cfg.b) + 2) * s.cfg.tShort ∧ runFor k s = .next t ∧ runEnded t = true ∧
        ∀ j u, j < k → runFor j s = .next u → runEnded u = false))

/-- 30_encoding.md R87, R88: what the assembler makes of each line and when it refuses it. A LOAD or SHOW has exactly N
operands of at most 15, the p-th on lane p; `.cmd` has op at most 7 and data below 2^(4N); RESET has at least one cycle; all
other lines are always taken. A listing is the lines of its lines in order. -/
def Obligations.AssemblerLines : Prop :=
  (∀ (n : Nat) (ops : List Nat) (lines : List Line),
    assembleLine n (.load ops) = .ok lines ↔
      ops.length = n ∧ (∀ v ∈ ops, v ≤ 15) ∧ lines = [.cmd 1 (packLanes (ops.map (BitVec.ofNat 4)))]) ∧
  (∀ (n : Nat) (ops : List Nat) (lines : List Line),
    assembleLine n (.showDigits ops) = .ok lines ↔
      ops.length = n ∧ (∀ v ∈ ops, v ≤ 15) ∧ lines = [.cmd 1 (packLanes (ops.map (BitVec.ofNat 4))), .cmd 3 0]) ∧
  (∀ (n op data : Nat) (lines : List Line),
    assembleLine n (.raw op data) = .ok lines ↔
      op ≤ 7 ∧ data < 2 ^ (4 * n) ∧ lines = [.cmd (BitVec.ofNat 3 op) data]) ∧
  (∀ (n k : Nat) (lines : List Line), assembleLine n (.reset k) = .ok lines ↔ 1 ≤ k ∧ lines = [.reset k]) ∧
  (∀ n : Nat,
    assembleLine n .nop = .ok [.cmd 0 0] ∧ assembleLine n .clear = .ok [.cmd 2 0] ∧
    assembleLine n .xfer = .ok [.cmd 3 0] ∧ assembleLine n .blank = .ok [.cmd 4 0] ∧
    assembleLine n .clrerr = .ok [.cmd 5 0] ∧ (∀ k, assembleLine n (.idle k) = .ok [.idle k]) ∧
    assembleLine n .waitrdy = .ok [.waitrdy] ∧ assembleLine n .blankAll = .ok [.cmd 2 0, .cmd 3 0]) ∧
  (∀ (n : Nat) (a : AsmLine) (rest : List AsmLine) (lines : List Line),
    assemble n [] = .ok [] ∧
    (assemble n (a :: rest) = .ok lines ↔
      ∃ first more, assembleLine n a = .ok first ∧ assemble n rest = .ok more ∧ lines = first ++ more))

/-- 43_host_sequencer.md R208, R209: when the stop signal is observed at a stop check, in Idle (entered from Startup or not)
or at the end of Waiting (T_LONG = 0 or more), BLANK is presented in that very cycle (log 12); from then on the loop
presents BLANK until it is accepted, once, and no other command ever. -/
def Obligations.StopIssuesBlankOnceAndNothingElse : Prop :=
  (∀ (s : State) (h : Refresh),
    s.host = .refresh h → AtStopCheck s h → h.stops.headD false = true →
    portInputs s = ⟨false, true, 4, 0⟩ ∧
    ∃ h', hostNext s = .refresh h' ∧ h'.phase = if cmdReady s then .stopWait else .stopBlank) ∧
  (∀ (s : State) (h : Refresh),
    s.host = .refresh h → (h.phase = .stopBlank ∨ h.phase = .stopWait ∨ h.phase = .stopped) →
    (portInputs s).rst = false ∧
    (h.phase = .stopBlank → portInputs s = ⟨false, true, 4, 0⟩) ∧
    (h.phase ≠ .stopBlank → (portInputs s).cmdValid = false) ∧
    ∃ h', hostNext s = .refresh h' ∧
      (h.phase = .stopBlank → h'.phase = if cmdReady s then .stopWait else .stopBlank) ∧
      (h.phase = .stopWait → h'.phase = if cmdReady s then .stopped else .stopWait) ∧
      (h.phase = .stopped → h'.phase = .stopped))

/-- 43_host_sequencer.md R204, R206, R207: the loop asserts `rst` for the cycles of Startup, then presents BLANK until it is
accepted and waits for `cmd_ready = 1` if STARTUP_BLANK is true, and then is in Idle; Transferring presents XFER until it is
accepted and is left at the first cycle with `cmd_ready = 1`, in which Waiting begins with T_LONG cycles left (log 12: a
check takes no cycle of its own, so the loop acts in that cycle as Idle or Waiting does). -/
def Obligations.RefreshLoopStartsAndTransfers : Prop :=
  ∀ (s : State) (h : Refresh), s.host = .refresh h →
    (∀ k, h.phase = .startupReset k → (portInputs s).rst = true ∧ (portInputs s).cmdValid = false) ∧
    (∀ k, h.phase = .startupReset (k + 1) → hostNext s = .refresh { h with phase := .startupReset k }) ∧
    (h.phase = .startupReset 0 →
      hostNext s = .refresh { h with phase := if s.cfg.startupBlank then .startupBlank else .idle }) ∧
    (h.phase = .startupBlank → portInputs s = ⟨false, true, 4, 0⟩ ∧
      hostNext s = .refresh { h with phase := if cmdReady s then .startupWait else .startupBlank }) ∧
    (h.phase = .startupWait → cmdReady s = false →
      (portInputs s).rst = false ∧ (portInputs s).cmdValid = false ∧ hostNext s = s.host) ∧
    (h.phase = .startupWait → cmdReady s = true →
      driverStep s = driverStep { s with host := .refresh { h with phase := .idle } }) ∧
    (h.phase = .transferring → portInputs s = ⟨false, true, 3, 0⟩ ∧
      hostNext s = .refresh { h with phase := if cmdReady s then .transferWait else .transferring }) ∧
    (h.phase = .transferWait → cmdReady s = false →
      (portInputs s).rst = false ∧ (portInputs s).cmdValid = false ∧ hostNext s = s.host) ∧
    (h.phase = .transferWait → cmdReady s = true →
      driverStep s = driverStep { s with host := .refresh { h with phase := .waiting s.cfg.tLong } })

/-- 43_host_sequencer.md R205 steps 3 to 5, R208: what the loop presents after a LOAD was accepted, by `err_digit` and
RETRY_POLICY, and where it goes: RETRY to the next draw, SKIP and a good LOAD to the transfer, HALT to the stop. In Waiting
it presents nothing and counts one cycle. That reading takes no cycle of its own is log 12. -/
def Obligations.RefreshLoopReadsTheFlag : Prop :=
  ∀ (s : State) (h : Refresh), s.host = .refresh h →
    (h.phase = .reading →
      (s.errDigit = false ∨ s.cfg.retryPolicy = .skip →
        portInputs s = ⟨false, true, 3, 0⟩ ∧
        hostNext s = .refresh { h with phase := if cmdReady s then .transferWait else .transferring }) ∧
      (s.errDigit = true → s.cfg.retryPolicy = .retry →
        portInputs s = ⟨false, true, 5, 0⟩ ∧
        hostNext s = .refresh { h with phase := if cmdReady s then .drawing else .clearing }) ∧
      (s.errDigit = true → s.cfg.retryPolicy = .halt →
        portInputs s = ⟨false, true, 4, 0⟩ ∧
        hostNext s = .refresh { h with phase := if cmdReady s then .stopWait else .stopBlank })) ∧
    (∀ k, h.phase = .waiting (k + 1) →
      (portInputs s).rst = false ∧ (portInputs s).cmdValid = false ∧
      hostNext s = .refresh { h with phase := .waiting k })

/-- 43_host_sequencer.md R205 steps 1 and 2, R208: at a stop check without the stop signal the loop goes to Regenerating,
with CLRERR first if `err_digit = 1` and with a LOAD at once if it is 0; after CLRERR it draws and presents a LOAD; each is
presented, with the same data, until it is accepted, CLRERR then being followed by the draw and LOAD by the reading of the
flag. One stop answer is used up by a check and N draws by a LOAD (logs 12, 13). -/
def Obligations.RefreshLoopRegenerates : Prop :=
  ∀ (s : State) (h : Refresh), s.host = .refresh h →
    (AtStopCheck s h → h.stops.headD false = false → s.errDigit = true →
      portInputs s = ⟨false, true, 5, 0⟩ ∧
      hostNext s =
        .refresh { h with stops := h.stops.tail, phase := if cmdReady s then .drawing else .clearing }) ∧
    (AtStopCheck s h → h.stops.headD false = false → s.errDigit = false →
      driverStep s = driverStep { s with host := .refresh { h with stops := h.stops.tail, phase := .drawing } }) ∧
    (h.phase = .clearing →
      portInputs s = ⟨false, true, 5, 0⟩ ∧
      hostNext s = .refresh { h with phase := if cmdReady s then .drawing else .clearing }) ∧
    (h.phase = .drawing →
      ∃ data, portInputs s = ⟨false, true, 1, data⟩ ∧
        hostNext s =
          .refresh
            { phase := if cmdReady s then .reading else .loading data
              digits := h.digits.drop s.cfg.n
              stops := h.stops
              draws := if h.digits.length < s.cfg.n then h.draws + 1 else h.draws }) ∧
    (∀ data, h.phase = .loading data →
      portInputs s = ⟨false, true, 1, data⟩ ∧
      hostNext s = .refresh { h with phase := if cmdReady s then .reading else .loading data })

/-- 43_host_sequencer.md R202, R205: where the loop draws, after a CLRERR or at a stop check without the stop signal and with
`err_digit = 0`, it presents a LOAD whose lane p is the p-th draw, a draw above 15 as the invalid lane 15 (log 14, the
model's choice among the invalid lane values), never truncated. A draw beyond the listed ones is a free value (log 13). -/
def Obligations.DrawsAreNeverTruncated : Prop :=
  ∀ (s : State) (h : Refresh),
    s.host = .refresh h →
    (h.phase = .drawing ∨ (AtStopCheck s h ∧ h.stops.headD false = false ∧ s.errDigit = false)) →
    ∃ lanes, portInstr (portInputs s) s = .load lanes ∧ lanes.length = s.cfg.n ∧
      (∀ (p v : Nat) (c : Code), h.digits[p]?.getD (Config.nextDigit h.draws p) = v → lanes[p]? = some c →
        (v ≤ 15 → c.toNat = v) ∧ (15 < v → c.toNat = 15))
end

