-- ==== Sys2Proof/Laws/State.lean ====
section
/-! SUPPORT. What each update of the state does to each field, so that no proof unfolds an update. -/

namespace Sys2Proof.Machine

variable (s : State)

@[simp] theorem raiseError_digit_cfg : (raiseError .invalidDigitValue s).cfg = s.cfg := rfl
@[simp] theorem raiseError_digit_dbuf : (raiseError .invalidDigitValue s).dbuf = s.dbuf := rfl
@[simp] theorem raiseError_digit_fsm : (raiseError .invalidDigitValue s).fsm = s.fsm := rfl
@[simp] theorem raiseError_digit_pos : (raiseError .invalidDigitValue s).pos = s.pos := rfl
@[simp] theorem raiseError_digit_bit : (raiseError .invalidDigitValue s).bit = s.bit := rfl
@[simp] theorem raiseError_digit_tick : (raiseError .invalidDigitValue s).tick = s.tick := rfl
@[simp] theorem raiseError_digit_src : (raiseError .invalidDigitValue s).src = s.src := rfl
@[simp] theorem raiseError_digit_errDigit : (raiseError .invalidDigitValue s).errDigit = true := rfl
@[simp] theorem raiseError_digit_errOp : (raiseError .invalidDigitValue s).errOp = s.errOp := rfl
@[simp] theorem raiseError_digit_rx : (raiseError .invalidDigitValue s).rx = s.rx := rfl
@[simp] theorem raiseError_digit_chip : (raiseError .invalidDigitValue s).chip = s.chip := rfl
@[simp] theorem raiseError_digit_host : (raiseError .invalidDigitValue s).host = s.host := rfl

@[simp] theorem raiseError_op_cfg : (raiseError .illegalCommand s).cfg = s.cfg := rfl
@[simp] theorem raiseError_op_dbuf : (raiseError .illegalCommand s).dbuf = s.dbuf := rfl
@[simp] theorem raiseError_op_fsm : (raiseError .illegalCommand s).fsm = s.fsm := rfl
@[simp] theorem raiseError_op_pos : (raiseError .illegalCommand s).pos = s.pos := rfl
@[simp] theorem raiseError_op_bit : (raiseError .illegalCommand s).bit = s.bit := rfl
@[simp] theorem raiseError_op_tick : (raiseError .illegalCommand s).tick = s.tick := rfl
@[simp] theorem raiseError_op_src : (raiseError .illegalCommand s).src = s.src := rfl
@[simp] theorem raiseError_op_errDigit : (raiseError .illegalCommand s).errDigit = s.errDigit := rfl
@[simp] theorem raiseError_op_errOp : (raiseError .illegalCommand s).errOp = true := rfl
@[simp] theorem raiseError_op_rx : (raiseError .illegalCommand s).rx = s.rx := rfl
@[simp] theorem raiseError_op_chip : (raiseError .illegalCommand s).chip = s.chip := rfl
@[simp] theorem raiseError_op_host : (raiseError .illegalCommand s).host = s.host := rfl

@[simp] theorem clearErrors_cfg : (clearErrors s).cfg = s.cfg := rfl
@[simp] theorem clearErrors_dbuf : (clearErrors s).dbuf = s.dbuf := rfl
@[simp] theorem clearErrors_fsm : (clearErrors s).fsm = s.fsm := rfl
@[simp] theorem clearErrors_pos : (clearErrors s).pos = s.pos := rfl
@[simp] theorem clearErrors_bit : (clearErrors s).bit = s.bit := rfl
@[simp] theorem clearErrors_tick : (clearErrors s).tick = s.tick := rfl
@[simp] theorem clearErrors_src : (clearErrors s).src = s.src := rfl
@[simp] theorem clearErrors_errDigit : (clearErrors s).errDigit = false := rfl
@[simp] theorem clearErrors_errOp : (clearErrors s).errOp = false := rfl
@[simp] theorem clearErrors_rx : (clearErrors s).rx = s.rx := rfl
@[simp] theorem clearErrors_chip : (clearErrors s).chip = s.chip := rfl
@[simp] theorem clearErrors_host : (clearErrors s).host = s.host := rfl

@[simp] theorem writeDbuf_cfg (cells : List Code) : (writeDbuf cells s).cfg = s.cfg := rfl
@[simp] theorem writeDbuf_dbuf (cells : List Code) : (writeDbuf cells s).dbuf = cells := rfl
@[simp] theorem writeDbuf_fsm (cells : List Code) : (writeDbuf cells s).fsm = s.fsm := rfl
@[simp] theorem writeDbuf_pos (cells : List Code) : (writeDbuf cells s).pos = s.pos := rfl
@[simp] theorem writeDbuf_bit (cells : List Code) : (writeDbuf cells s).bit = s.bit := rfl
@[simp] theorem writeDbuf_tick (cells : List Code) : (writeDbuf cells s).tick = s.tick := rfl
@[simp] theorem writeDbuf_src (cells : List Code) : (writeDbuf cells s).src = s.src := rfl
@[simp] theorem writeDbuf_errDigit (cells : List Code) : (writeDbuf cells s).errDigit = s.errDigit := rfl
@[simp] theorem writeDbuf_errOp (cells : List Code) : (writeDbuf cells s).errOp = s.errOp := rfl
@[simp] theorem writeDbuf_rx (cells : List Code) : (writeDbuf cells s).rx = s.rx := rfl
@[simp] theorem writeDbuf_chip (cells : List Code) : (writeDbuf cells s).chip = s.chip := rfl
@[simp] theorem writeDbuf_host (cells : List Code) : (writeDbuf cells s).host = s.host := rfl

@[simp] theorem startTransfer_cfg (src : Bool) : (startTransfer src s).cfg = s.cfg := rfl
@[simp] theorem startTransfer_dbuf (src : Bool) : (startTransfer src s).dbuf = s.dbuf := rfl
@[simp] theorem startTransfer_fsm (src : Bool) : (startTransfer src s).fsm = .setup := rfl
@[simp] theorem startTransfer_pos (src : Bool) : (startTransfer src s).pos = s.cfg.n - 1 := rfl
@[simp] theorem startTransfer_bit (src : Bool) : (startTransfer src s).bit = s.cfg.b - 1 := rfl
@[simp] theorem startTransfer_tick (src : Bool) : (startTransfer src s).tick = 0 := rfl
@[simp] theorem startTransfer_src (src : Bool) : (startTransfer src s).src = src := rfl
@[simp] theorem startTransfer_errDigit (src : Bool) : (startTransfer src s).errDigit = s.errDigit := rfl
@[simp] theorem startTransfer_errOp (src : Bool) : (startTransfer src s).errOp = s.errOp := rfl
@[simp] theorem startTransfer_rx (src : Bool) : (startTransfer src s).rx = s.rx := rfl
@[simp] theorem startTransfer_chip (src : Bool) : (startTransfer src s).chip = s.chip := rfl
@[simp] theorem startTransfer_host (src : Bool) : (startTransfer src s).host = s.host := rfl

@[simp] theorem idleSequencer_cfg : (idleSequencer s).cfg = s.cfg := rfl
@[simp] theorem idleSequencer_dbuf : (idleSequencer s).dbuf = s.dbuf := rfl
@[simp] theorem idleSequencer_fsm : (idleSequencer s).fsm = .idle := rfl
@[simp] theorem idleSequencer_pos : (idleSequencer s).pos = 0 := rfl
@[simp] theorem idleSequencer_bit : (idleSequencer s).bit = 0 := rfl
@[simp] theorem idleSequencer_tick : (idleSequencer s).tick = 0 := rfl
@[simp] theorem idleSequencer_src : (idleSequencer s).src = s.src := rfl
@[simp] theorem idleSequencer_errDigit : (idleSequencer s).errDigit = s.errDigit := rfl
@[simp] theorem idleSequencer_errOp : (idleSequencer s).errOp = s.errOp := rfl
@[simp] theorem idleSequencer_rx : (idleSequencer s).rx = s.rx := rfl
@[simp] theorem idleSequencer_chip : (idleSequencer s).chip = s.chip := rfl
@[simp] theorem idleSequencer_host : (idleSequencer s).host = s.host := rfl

@[simp] theorem resetBlock_cfg : (resetBlock s).cfg = s.cfg := rfl
@[simp] theorem resetBlock_dbuf : (resetBlock s).dbuf = List.replicate s.cfg.n blankCode := rfl
@[simp] theorem resetBlock_fsm : (resetBlock s).fsm = .idle := rfl
@[simp] theorem resetBlock_pos : (resetBlock s).pos = 0 := rfl
@[simp] theorem resetBlock_bit : (resetBlock s).bit = 0 := rfl
@[simp] theorem resetBlock_tick : (resetBlock s).tick = 0 := rfl
@[simp] theorem resetBlock_src : (resetBlock s).src = false := rfl
@[simp] theorem resetBlock_errDigit : (resetBlock s).errDigit = false := rfl
@[simp] theorem resetBlock_errOp : (resetBlock s).errOp = false := rfl
@[simp] theorem resetBlock_rx : (resetBlock s).rx = s.rx := rfl
@[simp] theorem resetBlock_chip : (resetBlock s).chip = s.chip := rfl
@[simp] theorem resetBlock_host : (resetBlock s).host = s.host := rfl

@[simp] theorem settle_cfg (t : State) : (settle s t).cfg = t.cfg := rfl
@[simp] theorem settle_dbuf (t : State) : (settle s t).dbuf = t.dbuf := rfl
@[simp] theorem settle_fsm (t : State) : (settle s t).fsm = t.fsm := rfl
@[simp] theorem settle_pos (t : State) : (settle s t).pos = t.pos := rfl
@[simp] theorem settle_bit (t : State) : (settle s t).bit = t.bit := rfl
@[simp] theorem settle_tick (t : State) : (settle s t).tick = t.tick := rfl
@[simp] theorem settle_src (t : State) : (settle s t).src = t.src := rfl
@[simp] theorem settle_errDigit (t : State) : (settle s t).errDigit = t.errDigit := rfl
@[simp] theorem settle_errOp (t : State) : (settle s t).errOp = t.errOp := rfl
@[simp] theorem settle_rx (t : State) : (settle s t).rx = receiverStep s.cfg.nb (linesOf s) s.rx := rfl
@[simp] theorem settle_chip (t : State) : (settle s t).chip = chipStep s.cfg (portInputs s).rst s.fsm (linesOf s) s.chip := rfl
@[simp] theorem settle_host (t : State) : (settle s t).host = hostNext s := rfl

theorem resetFor_eq_resetBlock (c : Config) : resetBlock (State.resetFor c) = State.resetFor c := rfl

@[simp] theorem resetFor_cfg (c : Config) : (State.resetFor c).cfg = c := rfl

end Sys2Proof.Machine
end

