-- ==== Sys2Proof/Laws/Ops.lean ====
section
/-! SUPPORT. What each shared operation and the step can do, said once: later proofs cite these and unfold nothing. -/

namespace Sys2Proof.Machine

/-! ## Readiness -/

theorem cmdReady_iff (s : State) : cmdReady s = true ↔ s.fsm = .idle := by simp [cmdReady]

theorem cmdReady_false_iff (s : State) : cmdReady s = false ↔ s.fsm ≠ .idle := by simp [cmdReady]

theorem unused_iff (p : Phase) : p.unused = true ↔ p = .unused5 ∨ p = .unused6 ∨ p = .unused7 := by
  cases p <;> decide

theorem accepts_iff (inp : Inputs) (s : State) :
    accepts inp s = true ↔ inp.rst = false ∧ inp.cmdValid = true ∧ s.fsm = .idle := by
  simp [accepts, cmdReady, and_assoc]

/-! ## Valid lanes -/

theorem validDigit_iff (c : Code) : validDigit c = true ↔ c.toNat ≤ 9 := by simp [validDigit]

theorem allValid_iff (lanes : List Code) : allValid lanes = true ↔ ∀ c ∈ lanes, c.toNat ≤ 9 := by
  simp [allValid, validDigit]

theorem allValid_false_iff (lanes : List Code) : allValid lanes = false ↔ ∃ c ∈ lanes, 9 < c.toNat := by
  simp [allValid, validDigit]

theorem storable_of_valid {c : Code} (h : validDigit c = true) : storable c = true := by simp [storable, h]

/-! ## The status vector -/

/-- Bit 0 is `err_digit` (60_exceptions.md R231). -/
theorem statusVector_digit (s : State) : (statusVector s).getLsbD 0 = s.errDigit := by
  unfold statusVector; cases s.errDigit <;> cases s.errOp <;> decide

/-- Bit 1 is `err_op` (60_exceptions.md R232). -/
theorem statusVector_op (s : State) : (statusVector s).getLsbD 1 = s.errOp := by
  unfold statusVector; cases s.errDigit <;> cases s.errOp <;> decide

/-! ## The busy advance writes the sequencing state and nothing else (42_line_fsm.md R163) -/

section advance
variable (s : State)

@[simp] theorem endPhase_cfg : (endPhase s).cfg = s.cfg := by unfold endPhase; (repeat' split) <;> rfl
@[simp] theorem endPhase_dbuf : (endPhase s).dbuf = s.dbuf := by unfold endPhase; (repeat' split) <;> rfl
@[simp] theorem endPhase_src : (endPhase s).src = s.src := by unfold endPhase; (repeat' split) <;> rfl
@[simp] theorem endPhase_errDigit : (endPhase s).errDigit = s.errDigit := by unfold endPhase; (repeat' split) <;> rfl
@[simp] theorem endPhase_errOp : (endPhase s).errOp = s.errOp := by unfold endPhase; (repeat' split) <;> rfl
@[simp] theorem endPhase_rx : (endPhase s).rx = s.rx := by unfold endPhase; (repeat' split) <;> rfl
@[simp] theorem endPhase_chip : (endPhase s).chip = s.chip := by unfold endPhase; (repeat' split) <;> rfl
@[simp] theorem endPhase_host : (endPhase s).host = s.host := by unfold endPhase; (repeat' split) <;> rfl
@[simp] theorem endPhase_tick : (endPhase s).tick = 0 := by unfold endPhase; (repeat' split) <;> rfl
@[simp] theorem advance_cfg : (advance s).cfg = s.cfg := by unfold advance; split <;> simp
@[simp] theorem advance_dbuf : (advance s).dbuf = s.dbuf := by unfold advance; split <;> simp
@[simp] theorem advance_src : (advance s).src = s.src := by unfold advance; split <;> simp
@[simp] theorem advance_errDigit : (advance s).errDigit = s.errDigit := by unfold advance; split <;> simp
@[simp] theorem advance_errOp : (advance s).errOp = s.errOp := by unfold advance; split <;> simp
@[simp] theorem advance_rx : (advance s).rx = s.rx := by unfold advance; split <;> simp
@[simp] theorem advance_chip : (advance s).chip = s.chip := by unfold advance; split <;> simp
@[simp] theorem advance_host : (advance s).host = s.host := by unfold advance; split <;> simp

theorem endPhase_setup (h : s.fsm = .setup) : endPhase s = { s with tick := 0, fsm := .high } := by
  simp [endPhase, h]

theorem endPhase_high_bit (h : s.fsm = .high) (hb : 0 < s.bit) :
    endPhase s = { s with tick := 0, fsm := .setup, bit := s.bit - 1 } := by
  simp [endPhase, h, hb]

theorem endPhase_high_pos (h : s.fsm = .high) (hb : s.bit = 0) (hp : 0 < s.pos) :
    endPhase s = { s with tick := 0, fsm := .setup, pos := s.pos - 1, bit := s.cfg.b - 1 } := by
  simp [endPhase, h, hb, hp]

theorem endPhase_high_last (h : s.fsm = .high) (hb : s.bit = 0) (hp : s.pos = 0) :
    endPhase s = { s with tick := 0, fsm := .lsetup } := by
  simp [endPhase, h, hb, hp]

theorem endPhase_lsetup (h : s.fsm = .lsetup) : endPhase s = { s with tick := 0, fsm := .lhigh } := by
  simp [endPhase, h]

theorem endPhase_lhigh (h : s.fsm = .lhigh) : endPhase s = { s with tick := 0, fsm := .idle } := by
  simp [endPhase, h]

/-- The busy phases (42_line_fsm.md R160). -/
theorem busy_phase_cases (hi : s.fsm ≠ .idle) (hu : s.fsm.unused = false) :
    s.fsm = .setup ∨ s.fsm = .high ∨ s.fsm = .lsetup ∨ s.fsm = .lhigh := by
  cases h : s.fsm <;> rw [h] at hi hu <;> first | exact absurd rfl hi | exact absurd hu (by decide) | simp

/-- Every end of a busy phase (42_line_fsm.md R163). -/
theorem endPhase_cases (hi : s.fsm ≠ .idle) (hu : s.fsm.unused = false) :
    (s.fsm = .setup ∧ endPhase s = { s with tick := 0, fsm := .high }) ∨
    (s.fsm = .high ∧ 0 < s.bit ∧ endPhase s = { s with tick := 0, fsm := .setup, bit := s.bit - 1 }) ∨
    (s.fsm = .high ∧ s.bit = 0 ∧ 0 < s.pos ∧
      endPhase s = { s with tick := 0, fsm := .setup, pos := s.pos - 1, bit := s.cfg.b - 1 }) ∨
    (s.fsm = .high ∧ s.bit = 0 ∧ s.pos = 0 ∧ endPhase s = { s with tick := 0, fsm := .lsetup }) ∨
    (s.fsm = .lsetup ∧ endPhase s = { s with tick := 0, fsm := .lhigh }) ∨
    (s.fsm = .lhigh ∧ endPhase s = { s with tick := 0, fsm := .idle }) := by
  rcases busy_phase_cases s hi hu with h | h | h | h
  · exact .inl ⟨h, endPhase_setup s h⟩
  · rcases Nat.eq_zero_or_pos s.bit with hb | hb
    · rcases Nat.eq_zero_or_pos s.pos with hp | hp
      · exact .inr (.inr (.inr (.inl ⟨h, hb, hp, endPhase_high_last s h hb hp⟩)))
      · exact .inr (.inr (.inl ⟨h, hb, hp, endPhase_high_pos s h hb hp⟩))
    · exact .inr (.inl ⟨h, hb, endPhase_high_bit s h hb⟩)
  · exact .inr (.inr (.inr (.inr (.inl ⟨h, endPhase_lsetup s h⟩))))
  · exact .inr (.inr (.inr (.inr (.inr ⟨h, endPhase_lhigh s h⟩))))

theorem advance_counts (h : s.tick < s.cfg.tShort - 1) : advance s = { s with tick := s.tick + 1 } := by
  simp [advance, h]

theorem advance_ends (h : ¬ s.tick < s.cfg.tShort - 1) : advance s = endPhase s := by simp [advance, h]

end advance

/-! ## What a command can do -/

/-- Every next state of a command, by command (R82). -/
theorem exec_next_cases {i : Instr} {s t : State} (h : exec i s = .next t) :
    (i = .nop ∧ t = s) ∨
    (∃ lanes, i = .load lanes ∧ allValid lanes = true ∧ t = writeDbuf lanes s) ∨
    (∃ lanes, i = .load lanes ∧ allValid lanes = false ∧ t = raiseError .invalidDigitValue s) ∨
    (i = .clear ∧ t = writeDbuf (List.replicate s.cfg.n blankCode) s) ∨
    (i = .xfer ∧ t = startTransfer false s) ∨
    (i = .blank ∧ t = startTransfer true s) ∨
    (i = .clrerr ∧ t = clearErrors s) ∨
    ((i = .rsvd6 ∨ i = .rsvd7) ∧ t = raiseError .illegalCommand s) := by
  cases i with
  | load lanes =>
    cases hv : allValid lanes <;> simp [exec, execLoad, hv] at h <;> simp [h, hv]
  | _ =>
    simp [exec, execNop, execClear, execXfer, execBlank, execClrerr, execRsvd6, execRsvd7] at h
    simp [h]

theorem exec_cfg {i : Instr} {s t : State} (h : exec i s = .next t) : t.cfg = s.cfg := by
  rcases exec_next_cases h with ⟨-, rfl⟩ | ⟨_, -, -, rfl⟩ | ⟨_, -, -, rfl⟩ | ⟨-, rfl⟩ | ⟨-, rfl⟩ | ⟨-, rfl⟩ | ⟨-, rfl⟩ | ⟨-, rfl⟩ <;> rfl

/-! ## What a clock edge can do -/

theorem blockCycle_rst {inp : Inputs} (s : State) (h : inp.rst = true) : blockCycle inp s = .next (resetBlock s) := by
  simp [blockCycle, h]

theorem blockCycle_accept {inp : Inputs} {s : State} (h : accepts inp s = true) :
    blockCycle inp s = exec (portInstr inp s) s := by
  obtain ⟨h1, h2, h3⟩ := (accepts_iff _ _).mp h
  simp [blockCycle, h1, h2, (cmdReady_iff s).mpr h3]

theorem blockCycle_quiet {inp : Inputs} {s : State} (h1 : inp.rst = false) (h2 : s.fsm = .idle)
    (h3 : inp.cmdValid = false) : blockCycle inp s = .next s := by
  simp [blockCycle, h1, h3, (cmdReady_iff s).mpr h2]

theorem blockCycle_busy {inp : Inputs} {s : State} (h1 : inp.rst = false) (h2 : s.fsm ≠ .idle)
    (h3 : s.fsm.unused = false) : blockCycle inp s = .next (advance s) := by
  simp [blockCycle, h1, h3, (cmdReady_false_iff s).mpr h2]

theorem blockCycle_unused {inp : Inputs} {s : State} (h1 : inp.rst = false) (h3 : s.fsm.unused = true) :
    blockCycle inp s = .fault .unusedPhase := by
  have h2 : s.fsm ≠ .idle := by rintro h; rw [h] at h3; exact absurd h3 (by decide)
  simp [blockCycle, h1, h3, (cmdReady_false_iff s).mpr h2]

/-- Every next state of the block at a clock edge (42_line_fsm.md R165). -/
theorem blockCycle_next_cases {inp : Inputs} {s t : State} (h : blockCycle inp s = .next t) :
    (inp.rst = true ∧ t = resetBlock s) ∨
    (accepts inp s = true ∧ exec (portInstr inp s) s = .next t) ∨
    (inp.rst = false ∧ s.fsm = .idle ∧ inp.cmdValid = false ∧ t = s) ∨
    (inp.rst = false ∧ s.fsm ≠ .idle ∧ s.fsm.unused = false ∧ t = advance s) := by
  by_cases hr : inp.rst = true
  · rw [blockCycle_rst s hr] at h
    exact .inl ⟨hr, by simpa using h.symm⟩
  have hr : inp.rst = false := by simpa using hr
  by_cases hi : s.fsm = .idle
  · by_cases hv : inp.cmdValid = true
    · have ha : accepts inp s = true := (accepts_iff _ _).mpr ⟨hr, hv, hi⟩
      exact .inr (.inl ⟨ha, by rw [← blockCycle_accept ha, h]⟩)
    · have hv : inp.cmdValid = false := by simpa using hv
      rw [blockCycle_quiet hr hi hv] at h
      exact .inr (.inr (.inl ⟨hr, hi, hv, by simpa using h.symm⟩))
  · by_cases hu : s.fsm.unused = true
    · rw [blockCycle_unused hr hu] at h; cases h
    · have hu : s.fsm.unused = false := by simpa using hu
      rw [blockCycle_busy hr hi hu] at h
      exact .inr (.inr (.inr ⟨hr, hi, hu, by simpa using h.symm⟩))

/-- A step is the block's clock edge with the receivers and the host moved on beside it. -/
theorem step_next_iff {s t : State} :
    step s = .next t ↔ ∃ u, blockCycle (portInputs s) s = .next u ∧ t = settle s u := by
  unfold step cycle
  cases h : blockCycle (portInputs s) s <;> simp [eq_comm]

theorem step_of_block {s u : State} (h : blockCycle (portInputs s) s = .next u) : step s = .next (settle s u) :=
  step_next_iff.mpr ⟨u, h, rfl⟩

theorem blockCycle_cfg {inp : Inputs} {s t : State} (h : blockCycle inp s = .next t) : t.cfg = s.cfg := by
  rcases blockCycle_next_cases h with ⟨-, rfl⟩ | ⟨-, he⟩ | ⟨-, -, -, rfl⟩ | ⟨-, -, -, rfl⟩
  · rfl
  · exact exec_cfg he
  · rfl
  · simp

theorem step_cfg {s t : State} (h : step s = .next t) : t.cfg = s.cfg := by
  obtain ⟨u, hu, rfl⟩ := step_next_iff.mp h
  simpa using blockCycle_cfg hu

end Sys2Proof.Machine
end

