-- ==== Sys2Proof/Laws/Drive.lean ====
section
/-! SUPPORT. What each host drives, said once for each form of host. -/

namespace Sys2Proof.Machine

variable {s : State}

theorem driverStep_trace_nil (h : s.host = .trace []) : driverStep s = (quietInputs, .trace []) := by
  simp [driverStep, h]

theorem driverStep_trace_cons {inp : Inputs} {rest : List Inputs} (h : s.host = .trace (inp :: rest)) :
    driverStep s = (inp, .trace rest) := by
  simp [driverStep, h]

theorem driverStep_program {lines : List Line} (h : s.host = .program lines) :
    driverStep s = ((programDrive (cmdReady s) lines).1, .program (programDrive (cmdReady s) lines).2) := by
  simp [driverStep, h]

/-- Where every line left takes no cycle, nothing is driven and no line is left (43_host_sequencer.md R211). -/
theorem programDrive_done {ready : Bool} {lines : List Line} (h : programDone ready lines = true) :
    programDrive ready lines = (quietInputs, []) := by
  induction lines with
  | nil => rfl
  | cons l rest ih =>
    match l with
    | .cmd _ _ => cases h
    | .reset (_ + 1) => cases h
    | .idle (_ + 1) => cases h
    | .reset 0 => exact ih h
    | .idle 0 => exact ih h
    | .waitrdy =>
      obtain ⟨hr, hd⟩ := Bool.and_eq_true_iff.mp h
      rw [programDrive, if_pos hr]
      exact ih hd

/-- The end of the run, for a host program (R211). -/
theorem runEnded_program {lines : List Line} (h : s.host = .program lines) :
    runEnded s = true ↔ programDone (cmdReady s) lines = true ∧ s.fsm = .idle := by
  simp [runEnded, h, cmdReady]

theorem driverStep_refresh {loop : Refresh} (h : s.host = .refresh loop) :
    driverStep s = ((refreshDrive s.cfg (cmdReady s) s.errDigit loop).1,
      .refresh (refreshDrive s.cfg (cmdReady s) s.errDigit loop).2) := by
  simp [driverStep, h]

@[simp] theorem commandInputs_rst (op : OpCode) (data : Nat) : (commandInputs op data).rst = false := rfl
@[simp] theorem commandInputs_cmdValid (op : OpCode) (data : Nat) : (commandInputs op data).cmdValid = true := rfl
@[simp] theorem commandInputs_cmdOp (op : OpCode) (data : Nat) : (commandInputs op data).cmdOp = op := rfl
@[simp] theorem commandInputs_cmdData (op : OpCode) (data : Nat) : (commandInputs op data).cmdData = data := rfl
@[simp] theorem quietInputs_rst : quietInputs.rst = false := rfl
@[simp] theorem quietInputs_cmdValid : quietInputs.cmdValid = false := rfl
@[simp] theorem resetInputs_rst : resetInputs.rst = true := rfl
@[simp] theorem resetInputs_cmdValid : resetInputs.cmdValid = false := rfl

/-- A placed word (logs 4, 5): the parameters stay, the block is idle, and the port carries the word. -/
@[simp] theorem presentWord_cfg (w : Nat) (s : State) : (presentWord w s).cfg = s.cfg := by
  unfold presentWord; split <;> rfl

@[simp] theorem presentWord_fsm (w : Nat) (s : State) : (presentWord w s).fsm = .idle := by
  unfold presentWord; split
  · assumption
  · rfl

theorem presentWord_inputs (w : Nat) (s : State) :
    portInputs (presentWord w s) = commandInputs (BitVec.ofNat 3 w) ((w >>> 3) % 2 ^ (4 * s.cfg.n)) := by
  rw [portInputs, driverStep_trace_cons (s := presentWord w s) rfl]

/-- The host looks at no receiver (42_line_fsm.md R183). -/
theorem driverStep_receivers (r : Receiver) (c : Chip) : driverStep { s with rx := r, chip := c } = driverStep s := rfl

theorem portInputs_receivers (r : Receiver) (c : Chip) : portInputs { s with rx := r, chip := c } = portInputs s := rfl

theorem hostNext_receivers (r : Receiver) (c : Chip) : hostNext { s with rx := r, chip := c } = hostNext s := rfl

/-- Each way to a stop check is the one check (43_host_sequencer.md R208). -/
theorem refreshDrive_atStopCheck {h : Refresh} (hp : AtStopCheck s h) :
    refreshDrive s.cfg (cmdReady s) s.errDigit h = checkStop s.cfg (cmdReady s) s.errDigit h := by
  rcases hp with hp | hp | ⟨hr, hp | ⟨hp, ht⟩⟩
  · simp only [refreshDrive, hp]
  · simp only [refreshDrive, hp, waitNow]
  · simp only [refreshDrive, hp, hr, if_true]
  · simp only [refreshDrive, hp, hr, if_true, waitNow, ht]

/-- A check that sees the stop signal stops the loop (R209). -/
theorem checkStop_stop {cfg : Config} {ready err : Bool} {h : Refresh} (hs : h.stops.headD false = true) :
    checkStop cfg ready err h = stopNow ready { h with stops := h.stops.tail } := by
  rw [checkStop, if_pos hs]

/-- A check that does not see it goes to Regenerating (R208). -/
theorem checkStop_go {cfg : Config} {ready err : Bool} {h : Refresh} (hs : h.stops.headD false = false) :
    checkStop cfg ready err h = regenerateNow cfg ready err { h with stops := h.stops.tail } := by
  rw [checkStop, if_neg (by rw [hs]; decide)]

end Sys2Proof.Machine
end

