-- ==== Sys2Proof/Laws/Words.lean ====
section
/-! SUPPORT. Lanes and words: what packing and reading a lane do to each other. -/

namespace Sys2Proof

@[simp] theorem lanesOf_length (n d : Nat) : (lanesOf n d).length = n := by simp [lanesOf]

theorem packLanes_lt (lanes : List Code) : packLanes lanes < 16 ^ lanes.length := by
  induction lanes with
  | nil => simp [packLanes]
  | cons c rest ih =>
    have hc : c.toNat < 16 := c.isLt
    simp only [packLanes, List.length_cons, Nat.pow_succ]
    omega

theorem two_pow_four_mul (n : Nat) : 2 ^ (4 * n) = 16 ^ n := by rw [Nat.pow_mul]

theorem laneOf_zero_packLanes (c : Code) (rest : List Code) : laneOf (packLanes (c :: rest)) 0 = c := by
  apply BitVec.eq_of_toNat_eq
  have hc : c.toNat < 16 := c.isLt
  simp only [laneOf, packLanes, Nat.mul_zero, Nat.shiftRight_zero, BitVec.toNat_ofNat]
  omega

theorem laneOf_succ_packLanes (c : Code) (rest : List Code) (p : Nat) :
    laneOf (packLanes (c :: rest)) (p + 1) = laneOf (packLanes rest) p := by
  have hc : c.toNat < 16 := c.isLt
  have h : packLanes (c :: rest) >>> (4 * (p + 1)) = packLanes rest >>> (4 * p) := by
    rw [Nat.mul_add, Nat.add_comm, Nat.shiftRight_add]
    congr 1
    simp only [packLanes, Nat.shiftRight_eq_div_pow]
    omega
  simp only [laneOf, h]

/-- Reading back the lanes that were packed. -/
theorem lanesOf_packLanes (lanes : List Code) : lanesOf lanes.length (packLanes lanes) = lanes := by
  induction lanes with
  | nil => rfl
  | cons c rest ih =>
    have h : (List.range rest.length).map (fun p => laneOf (packLanes (c :: rest)) (p + 1))
        = lanesOf rest.length (packLanes rest) := by
      simp only [laneOf_succ_packLanes]; rfl
    rw [lanesOf, List.length_cons, List.range_succ_eq_map, List.map_cons, List.map_map, laneOf_zero_packLanes]
    exact congrArg (c :: ·) (h.trans ih)

theorem lanesOf_succ (n d : Nat) : lanesOf (n + 1) d = laneOf d 0 :: lanesOf n (d / 16) := by
  have h : ∀ p, laneOf d (p + 1) = laneOf (d / 16) p := by
    intro p
    have : d >>> (4 * (p + 1)) = (d / 16) >>> (4 * p) := by
      rw [Nat.mul_add, Nat.add_comm, Nat.shiftRight_add, Nat.shiftRight_eq_div_pow d]
    simp only [laneOf, this]
  rw [lanesOf, List.range_succ_eq_map, List.map_cons, List.map_map]
  simp only [lanesOf, List.cons.injEq, true_and]
  exact List.map_congr_left fun p _ => h p

/-- Packing the lanes that were read. -/
theorem packLanes_lanesOf (n d : Nat) (h : d < 16 ^ n) : packLanes (lanesOf n d) = d := by
  induction n generalizing d with
  | zero => simp [lanesOf, packLanes] at h ⊢; omega
  | succ n ih =>
    rw [Nat.pow_succ] at h
    rw [lanesOf_succ, packLanes, ih (d / 16) (by omega)]
    simp only [laneOf, Nat.mul_zero, Nat.shiftRight_zero, BitVec.toNat_ofNat]
    omega

/-- Bit b of lane p is bit 4p + b of the wires (20_memory.md R63 a). -/
theorem laneOf_getLsbD (d p b : Nat) (hb : b < 4) : (laneOf d p).getLsbD b = d.testBit (4 * p + b) := by
  rw [laneOf, BitVec.getLsbD_ofNat, Nat.testBit_shiftRight]
  simp [hb]

theorem packLanes_testBit (lanes : List Code) (p b : Nat) (c : Code) (hp : lanes[p]? = some c) (hb : b < 4) :
    (packLanes lanes).testBit (4 * p + b) = c.getLsbD b := by
  rw [← laneOf_getLsbD _ _ _ hb]
  have h : (lanesOf lanes.length (packLanes lanes))[p]? = some c := by rw [lanesOf_packLanes, hp]
  obtain ⟨hlt, -⟩ := List.getElem?_eq_some_iff.mp hp
  simp [lanesOf, hlt] at h
  rw [h]

theorem wordOf_shift (op : OpCode) (data : Nat) : wordOf op data >>> 3 = data := by
  have := op.isLt
  simp only [wordOf, Nat.shiftRight_eq_div_pow]
  omega

theorem wordOf_op (op : OpCode) (data : Nat) : BitVec.ofNat 3 (wordOf op data) = op := by
  apply BitVec.eq_of_toNat_eq
  have := op.isLt
  simp only [wordOf, BitVec.toNat_ofNat]
  omega

/-- Every word is its op and its data. -/
theorem wordOf_fields (w : Nat) : wordOf (BitVec.ofNat 3 w) (w >>> 3) = w := by
  simp only [wordOf, BitVec.toNat_ofNat, Nat.shiftRight_eq_div_pow]
  omega

theorem wordOf_lt (n : Nat) (op : OpCode) (data : Nat) (h : data < 2 ^ (4 * n)) : wordOf op data < 2 ^ cmdWidth n := by
  have := op.isLt
  simp only [wordOf, cmdWidth, Nat.pow_add]
  omega

theorem packLanes_blank (n : Nat) : packLanes (List.replicate n blankCode) + 1 = 16 ^ n := by
  induction n with
  | zero => rfl
  | succ n ih =>
    have h : blankCode.toNat = 15 := by decide
    simp only [List.replicate_succ, packLanes, h, Nat.pow_succ]
    omega

end Sys2Proof
end

