-- ==== Sys2Proof/Laws/PerInstr.lean ====
section
/-! SUPPORT. A law of every command as syntax: a well-formed command fits in W_CMD bits (30_encoding.md R80, R81). -/

namespace Sys2Proof.Laws.EncodeFits

/-- The word of a command that is well formed for a block of n positions has no bit above W_CMD. -/
def Statement (i : Instr) : Prop := ∀ n : Nat, i.wf n = true → encode i < 2 ^ cmdWidth n

/-- A command without an operand drives no data bit (R87). -/
theorem of_no_data {i : Instr} (h : dataOf i = 0) : Statement i :=
  fun n _ => wordOf_lt n (opOf i) (dataOf i) (h ▸ Nat.pow_pos (by decide))

theorem nop : Statement .nop := of_no_data rfl

theorem load (lanes : List Code) : Statement (.load lanes) := by
  intro n h
  have hn : lanes.length = n := by simpa [Instr.wf] using h
  exact wordOf_lt n _ _ (by rw [two_pow_four_mul, ← hn]; exact packLanes_lt lanes)

theorem clear : Statement .clear := of_no_data rfl

theorem xfer : Statement .xfer := of_no_data rfl

theorem blank : Statement .blank := of_no_data rfl

theorem clrerr : Statement .clrerr := of_no_data rfl

theorem rsvd6 : Statement .rsvd6 := of_no_data rfl

theorem rsvd7 : Statement .rsvd7 := of_no_data rfl

end Sys2Proof.Laws.EncodeFits
end

