-- ==== Sys2Proof/Laws/Receiver.lean ====
section
/-! SUPPORT. What a receiver's cycle does (42_line_fsm.md R180), and what low lines leave alone. -/

namespace Sys2Proof.Machine

variable (len : Nat) (l : Lines) (r : Receiver)

@[simp] theorem receiverStep_prevClk : (receiverStep len l r).prevClk = l.clk := rfl
@[simp] theorem receiverStep_prevLatch : (receiverStep len l r).prevLatch = l.latch := rfl

theorem receiverStep_sr_rise (h : l.clk = true) (h' : r.prevClk = false) :
    (receiverStep len l r).sr = (l.data :: r.sr).take len := by simp [receiverStep, h, h']

theorem receiverStep_sr_hold (h : ¬ (l.clk = true ∧ r.prevClk = false)) : (receiverStep len l r).sr = r.sr := by
  simp only [receiverStep]
  rw [if_neg]; simpa using h

theorem receiverStep_out_rise (h : l.latch = true) (h' : r.prevLatch = false) :
    (receiverStep len l r).out = (receiverStep len l r).sr := by simp [receiverStep, h, h']

theorem receiverStep_out_hold (h : ¬ (l.latch = true ∧ r.prevLatch = false)) : (receiverStep len l r).out = r.out := by
  simp only [receiverStep]
  rw [if_neg]; simpa using h

theorem receiverStep_shaped {len : Nat} {r : Receiver} (l : Lines) (h : r.Shaped len) :
    (receiverStep len l r).Shaped len := by
  have hsr : (receiverStep len l r).sr.length = len := by
    by_cases hr : l.clk = true ∧ r.prevClk = false
    · rw [receiverStep_sr_rise len l r hr.1 hr.2, List.length_take, List.length_cons, h.sr]; omega
    · rw [receiverStep_sr_hold len l r hr, h.sr]
  refine ⟨hsr, ?_⟩
  by_cases hr : l.latch = true ∧ r.prevLatch = false
  · rw [receiverStep_out_rise len l r hr.1 hr.2, hsr]
  · rw [receiverStep_out_hold len l r hr, h.out]

@[simp] theorem freeBits_length (f : Nat → Bool) (len : Nat) : (freeBits f len).length = len := by simp [freeBits]

/-- Every phase's lines. -/
theorem linesOf_idle {s : State} (h : s.fsm = .idle) : linesOf s = ⟨false, false, false⟩ := by
  simp [linesOf, serData, serClk, serLatch, h]

theorem serClk_iff (s : State) : serClk s = true ↔ s.fsm = .high := by simp [serClk]

theorem serLatch_iff (s : State) : serLatch s = true ↔ s.fsm = .lhigh := by simp [serLatch]

/-- The bit on SER_DATA in SETUP and HIGH (R170). -/
theorem serData_shifting {s : State} (h : s.fsm = .setup ∨ s.fsm = .high) :
    serData s = patternBit s.cfg (codeAt s s.pos) s.bit := by
  rcases h with h | h <;> simp [serData, h]

/-- The code of a position depends on SRC and DBUF alone (41_transfer_commands.md R131). -/
theorem codeAt_congr {s t : State} (h : t.src = s.src) (h' : t.dbuf = s.dbuf) (p : Nat) : codeAt t p = codeAt s p := by
  simp [codeAt, h, h']

/-- The reference configuration of a chip that follows the reference receiver (60_exceptions.md R241). -/
theorem chainLength_of_faithful {c : Config} (h : c.chipFaithful = true) : c.chainLength = c.nb := by
  simp only [Config.chipFaithful, Bool.and_eq_true, decide_eq_true_eq] at h
  exact h.2

/-- Whatever the platform and the cycle, a latch rise stores the old pattern and no other cycle changes it (log 11). -/
theorem chipStep_oldOut (cfg : Config) (rst : Bool) (fsm : Phase) (l : Lines) (c : Chip) :
    (chipStep cfg rst fsm l c).oldOut = if l.latch && !c.regs.prevLatch then c.regs.out else c.oldOut := by
  dsimp only [chipStep]
  by_cases h : (!cfg.chipFaithful) = true
  · rw [if_pos h]
  · rw [if_neg h]; split <;> rfl

/-- The chip keeps the level of SER_LATCH for its next cycle. -/
theorem chipStep_prevLatch (cfg : Config) (rst : Bool) (fsm : Phase) (l : Lines) (c : Chip) :
    (chipStep cfg rst fsm l c).regs.prevLatch = l.latch := by
  dsimp only [chipStep]
  by_cases h : (!cfg.chipFaithful) = true
  · rw [if_pos h]; rfl
  · rw [if_neg h]; split <;> rfl

end Sys2Proof.Machine
end

