-- ==== Sys2Proof/Laws/Run.lean ====
section
/-! SUPPORT. Runs of several steps, and runs without `rst`. -/

namespace Sys2Proof.Machine

@[simp] theorem runFor_zero (s : State) : runFor 0 s = .next s := rfl

/-- `runFor` is the run of the host's interface. -/
theorem runFor_eq_core_run (k : Nat) (s : State) : runFor k s = Host.Core.run Sys2Proof.core k s := by
  induction k generalizing s with
  | zero => rfl
  | succ k ih =>
    have hc : Sys2Proof.core.step s = step s := rfl
    cases h : step s <;> simp only [runFor, Host.Core.run, hc, h, ih] <;> rfl

theorem runFor_succ {k : Nat} {s t : State} (h : step s = .next t) : runFor (k + 1) s = runFor k t := by
  simp only [runFor, h]

theorem runFor_succ_next {k : Nat} {s t : State} (h : runFor (k + 1) s = .next t) :
    ∃ u, step s = .next u ∧ runFor k u = .next t := by
  cases hs : step s <;> simp [runFor, hs] at h ⊢
  exact h

theorem runFor_one {s t : State} : runFor 1 s = .next t ↔ step s = .next t := by
  constructor
  · intro h
    obtain ⟨u, hu, h⟩ := runFor_succ_next h
    rw [hu, ← h, runFor_zero]
  · intro h
    rw [runFor_succ h, runFor_zero]

/-- One more step at the end of a run. -/
theorem runFor_snoc {k : Nat} {s t u : State} (h : runFor k s = .next t) (h' : step t = .next u) :
    runFor (k + 1) s = .next u := by
  induction k generalizing s with
  | zero =>
    have : s = t := by simpa using h
    subst this; exact runFor_one.mpr h'
  | succ k ih =>
    obtain ⟨v, hv, h⟩ := runFor_succ_next h
    rw [runFor_succ hv]
    exact ih h

/-- The last step of a run. -/
theorem runFor_snoc_next {k : Nat} {s u : State} (h : runFor (k + 1) s = .next u) :
    ∃ t, runFor k s = .next t ∧ step t = .next u := by
  induction k generalizing s with
  | zero => exact ⟨s, rfl, runFor_one.mp h⟩
  | succ k ih =>
    obtain ⟨v, hv, h⟩ := runFor_succ_next h
    obtain ⟨t, ht, hu⟩ := ih h
    exact ⟨t, by rw [runFor_succ hv, ht], hu⟩

/-- What every step keeps, every run keeps. -/
theorem runFor_keeps {P : State → Prop} (hstep : ∀ s t, P s → step s = .next t → P t) {k : Nat} {s t : State} (hs : P s)
    (h : runFor k s = .next t) : P t := by
  induction k generalizing s with
  | zero =>
    have : s = t := by simpa using h
    exact this ▸ hs
  | succ k ih =>
    obtain ⟨u, hu, h⟩ := runFor_succ_next h
    exact ih (hstep s u hs hu) h

theorem NoReset.mono {j k : Nat} {s : State} (h : NoReset k s) (hjk : j ≤ k) : NoReset j s :=
  fun i t hi ht => h i t (Nat.lt_of_lt_of_le hi hjk) ht

/-- The inputs of the state that a run without `rst` has reached. -/
theorem NoReset.at {j k : Nat} {s t : State} (h : NoReset k s) (hj : j < k) (ht : runFor j s = .next t) :
    (portInputs t).rst = false := h j t hj ht

/-- A run without `rst`, from its second state on. -/
theorem NoReset.tail {k : Nat} {s u : State} (h : NoReset (k + 1) s) (hu : step s = .next u) : NoReset k u :=
  fun j t hj ht => h (j + 1) t (by omega) (by rw [runFor_succ hu, ht])

end Sys2Proof.Machine
end

