-- ==== Sys2Proof/Laws/Timeline.lean ====
section
/-! SUPPORT. The arithmetic of the timeline of a transfer (42_line_fsm.md R167): the busy advance follows it. -/

namespace Sys2Proof.Machine

/-- Within a phase the next cycle is one tick further. -/
theorem div_mod_count {T m : Nat} (h : m % T < T - 1) : (m + 1) / T = m / T ∧ (m + 1) % T = m % T + 1 := by
  have hT : 0 < T := by omega
  have h1 : T * (m / T) + (m % T + 1) = m + 1 := by have := Nat.div_add_mod m T; omega
  constructor
  · rw [← h1, Nat.mul_add_div hT, Nat.div_eq_of_lt (a := m % T + 1) (by omega), Nat.add_zero]
  · rw [← h1, Nat.mul_add_mod, Nat.mod_eq_of_lt (by omega)]

/-- At the end of a phase the next cycle opens the next phase. -/
theorem div_mod_end {T m : Nat} (hT : 0 < T) (h : ¬ m % T < T - 1) : (m + 1) / T = m / T + 1 ∧ (m + 1) % T = 0 := by
  have hlt := Nat.mod_lt m hT
  have h1 : m + 1 = T * (m / T + 1) := by have := Nat.div_add_mod m T; rw [Nat.mul_add]; omega
  constructor
  · rw [h1, Nat.mul_div_cancel_left _ hT]
  · rw [h1, Nat.mul_mod_right]

/-- The bit after bit k of a pattern that has bits left: the same position, one bit lower (41_transfer_commands.md R132). -/
theorem stream_next_bit {c : Config} {k : Nat} (h : 0 < streamBit c k) :
    streamPos c (k + 1) = streamPos c k ∧ streamBit c (k + 1) = streamBit c k - 1 := by
  have hlt : k % c.b < c.b - 1 := by simp only [streamBit] at h; omega
  obtain ⟨h1, h2⟩ := div_mod_count hlt
  constructor
  · simp only [streamPos, h1]
  · simp only [streamBit, h2]; omega

/-- The bit after the last of a pattern: one position lower, its highest bit. -/
theorem stream_next_pos {c : Config} {k : Nat} (h : streamBit c k = 0) :
    streamPos c (k + 1) = streamPos c k - 1 ∧ streamBit c (k + 1) = c.b - 1 := by
  have hb := c.b_pos
  have hlt := Nat.mod_lt k (show 0 < c.b by omega)
  obtain ⟨h1, h2⟩ := div_mod_end (T := c.b) (m := k) (by omega) (by simp only [streamBit] at h; omega)
  constructor
  · simp only [streamPos, h1]; omega
  · simp only [streamBit, h2]; omega

/-- The last bit of the stream is bit 0 of position 0, and no other is. -/
theorem stream_last_iff {c : Config} {k : Nat} (h : k < c.nb) :
    (streamBit c k = 0 ∧ streamPos c k = 0) ↔ k + 1 = c.nb := by
  have hb : 0 < c.b := c.b_pos
  have hn : 0 < c.n := c.n_pos
  have hq : k / c.b < c.n := Nat.div_lt_of_lt_mul (by rw [Nat.mul_comm]; exact h)
  have hr := Nat.mod_lt k hb
  have hk := Nat.div_add_mod k c.b
  simp only [streamBit, streamPos, Config.nb]
  constructor
  · rintro ⟨h1, h2⟩
    have e1 : k % c.b = c.b - 1 := by omega
    have e2 : k / c.b = c.n - 1 := by omega
    rw [e1, e2] at hk
    have : c.b * (c.n - 1) + c.b = c.n * c.b := by
      rw [← Nat.mul_succ, Nat.succ_eq_add_one, Nat.sub_add_cancel hn, Nat.mul_comm]
    omega
  · intro h1
    have hk' : k + 1 = c.b * c.n := by rw [Nat.mul_comm, h1]
    have e2 : k / c.b = c.n - 1 := by
      apply Nat.le_antisymm (by omega)
      apply (Nat.le_div_iff_mul_le hb).mpr
      have : (c.n - 1) * c.b + c.b = c.n * c.b := by rw [← Nat.succ_mul, Nat.succ_eq_add_one, Nat.sub_add_cancel hn]
      omega
    refine ⟨?_, by omega⟩
    have : c.b * (c.n - 1) + c.b = c.b * c.n := by rw [← Nat.mul_succ, Nat.succ_eq_add_one, Nat.sub_add_cancel hn]
    rw [e2] at hk
    omega

/-- The first stream bit stands at the top of everything. -/
theorem stream_zero (c : Config) : streamPos c 0 = c.n - 1 ∧ streamBit c 0 = c.b - 1 := by
  simp [streamPos, streamBit]

theorem streamPos_lt (c : Config) (k : Nat) : streamPos c k < c.n := by
  have := c.n_pos; simp only [streamPos]; generalize k / c.b = q; omega

theorem streamBit_lt (c : Config) (k : Nat) : streamBit c k < c.b := by
  have := c.b_pos; simp only [streamBit]; omega

theorem nb_pos (c : Config) : 0 < c.nb := Nat.mul_pos c.n_pos c.b_pos

/-- A transfer begins at the head of the timeline (41_transfer_commands.md R134). -/
theorem timeline_zero (c : Config) : timeline c 0 = ⟨.setup, c.n - 1, c.b - 1, 0⟩ := by
  have := nb_pos c
  simp [timeline, stream_zero, this]

theorem timeline_shifting {c : Config} {m : Nat} (h : m / c.tShort < 2 * c.nb) :
    timeline c m = ⟨if m / c.tShort % 2 = 0 then .setup else .high, streamPos c (m / c.tShort / 2),
      streamBit c (m / c.tShort / 2), m % c.tShort⟩ := by
  simp [timeline, h]

theorem timeline_lsetup {c : Config} {m : Nat} (h : m / c.tShort = 2 * c.nb) :
    timeline c m = ⟨.lsetup, 0, 0, m % c.tShort⟩ := by
  simp [timeline, h]

theorem timeline_lhigh {c : Config} {m : Nat} (h : m / c.tShort = 2 * c.nb + 1) :
    timeline c m = ⟨.lhigh, 0, 0, m % c.tShort⟩ := by
  simp [timeline, h]

theorem timeline_idle {c : Config} {m : Nat} (h : 2 * c.nb + 2 ≤ m / c.tShort) : timeline c m = ⟨.idle, 0, 0, 0⟩ := by
  have h1 : ¬ m / c.tShort < 2 * c.nb := by omega
  have h2 : m / c.tShort ≠ 2 * c.nb := by omega
  have h3 : m / c.tShort ≠ 2 * c.nb + 1 := by omega
  simp [timeline, h1, h2, h3]

/-- Cycles before the end of the timeline are in one of its phases. -/
theorem div_lt_of_lt_transferCycles {c : Config} {m : Nat} (h : m < c.transferCycles) :
    m / c.tShort < 2 * c.nb + 2 := Nat.div_lt_of_lt_mul (by rw [Nat.mul_comm]; exact h)

/-- The four fields of the sequencing state. -/
theorem sequencingOf_eq_iff {s : State} {q : Sequencing} :
    sequencingOf s = q ↔ s.fsm = q.fsm ∧ s.pos = q.pos ∧ s.bit = q.bit ∧ s.tick = q.tick := by
  cases q; simp [sequencingOf]

/-- The busy advance follows the timeline, cycle by cycle (42_line_fsm.md R163, R167). -/
theorem advance_follows_timeline {s : State} {m : Nat} (h : sequencingOf s = timeline s.cfg m)
    (hm : m < s.cfg.transferCycles) : sequencingOf (advance s) = timeline s.cfg (m + 1) := by
  have hT : 0 < s.cfg.tShort := s.cfg.tShort_pos
  have hj := div_lt_of_lt_transferCycles hm
  have htick : s.tick = m % s.cfg.tShort := by
    rcases Nat.lt_trichotomy (m / s.cfg.tShort) (2 * s.cfg.nb) with h1 | h1 | h1
    · rw [timeline_shifting h1] at h; exact (sequencingOf_eq_iff.mp h).2.2.2
    · rw [timeline_lsetup h1] at h; exact (sequencingOf_eq_iff.mp h).2.2.2
    · rw [timeline_lhigh (by omega)] at h; exact (sequencingOf_eq_iff.mp h).2.2.2
  by_cases hc : s.tick < s.cfg.tShort - 1
  · obtain ⟨hd, hr⟩ := div_mod_count (T := s.cfg.tShort) (m := m) (by omega)
    rw [advance_counts s hc]
    have h' : timeline s.cfg (m + 1) = { timeline s.cfg m with tick := s.tick + 1 } := by
      rcases Nat.lt_trichotomy (m / s.cfg.tShort) (2 * s.cfg.nb) with h1 | h1 | h1
      · rw [timeline_shifting h1, timeline_shifting (by omega), hd, hr, htick]
      · rw [timeline_lsetup h1, timeline_lsetup (by omega), hr, htick]
      · rw [timeline_lhigh (by omega), timeline_lhigh (by omega), hr, htick]
    rw [h', ← h]
    rfl
  · obtain ⟨hd, hr⟩ := div_mod_end hT (m := m) (by omega)
    rw [advance_ends s hc]
    rcases Nat.lt_trichotomy (m / s.cfg.tShort) (2 * s.cfg.nb) with h1 | h1 | h1
    · rw [timeline_shifting h1] at h
      obtain ⟨hf, hp, hb, -⟩ := sequencingOf_eq_iff.mp h
      rcases Nat.mod_two_eq_zero_or_one (m / s.cfg.tShort) with h2 | h2
      · -- a SETUP ends: its HIGH follows
        simp only [h2, if_true] at hf
        rw [timeline_shifting (by omega), hd, hr]
        have e1 : (m / s.cfg.tShort + 1) / 2 = m / s.cfg.tShort / 2 := by omega
        have e2 : (m / s.cfg.tShort + 1) % 2 = 1 := by omega
        simp [sequencingOf, endPhase, hf, hp, hb, e1, e2]
      · -- a HIGH ends: the next bit, the next position, or LSETUP
        simp only [h2] at hf
        have hf : s.fsm = .high := by simpa using hf
        have e1 : (m / s.cfg.tShort + 1) / 2 = m / s.cfg.tShort / 2 + 1 := by omega
        have e2 : (m / s.cfg.tShort + 1) % 2 = 0 := by omega
        have hk : m / s.cfg.tShort / 2 < s.cfg.nb := by omega
        have hlast := stream_last_iff hk
        by_cases hb0 : 0 < streamBit s.cfg (m / s.cfg.tShort / 2)
        · have hne : m / s.cfg.tShort / 2 + 1 ≠ s.cfg.nb := by
            intro e; have := (hlast.mpr e).1; omega
          obtain ⟨g1, g2⟩ := stream_next_bit hb0
          rw [timeline_shifting (by omega), hd, hr]
          simp [sequencingOf, endPhase, hf, hp, hb, hb0, e1, e2, g1, g2]
        · have hb0 : streamBit s.cfg (m / s.cfg.tShort / 2) = 0 := by omega
          by_cases hp0 : 0 < streamPos s.cfg (m / s.cfg.tShort / 2)
          · have hne : m / s.cfg.tShort / 2 + 1 ≠ s.cfg.nb := by
              intro e; have := (hlast.mpr e).2; omega
            obtain ⟨g1, g2⟩ := stream_next_pos hb0
            rw [timeline_shifting (by omega), hd, hr]
            simp [sequencingOf, endPhase, hf, hp, hb, hb0, hp0, e1, e2, g1, g2]
          · have hp0 : streamPos s.cfg (m / s.cfg.tShort / 2) = 0 := by omega
            have he := hlast.mp ⟨hb0, hp0⟩
            rw [timeline_lsetup (by omega), hr]
            simp [sequencingOf, endPhase, hf, hp, hb, hb0, hp0]
    · rw [timeline_lsetup h1] at h
      obtain ⟨hf, hp, hb, -⟩ := sequencingOf_eq_iff.mp h
      rw [timeline_lhigh (by omega), hr]
      simp only at hf hp hb
      simp [sequencingOf, endPhase, hf, hp, hb]
    · rw [timeline_lhigh (by omega)] at h
      obtain ⟨hf, hp, hb, -⟩ := sequencingOf_eq_iff.mp h
      rw [timeline_idle (by omega)]
      simp only at hf hp hb
      simp [sequencingOf, endPhase, hf, hp, hb]

end Sys2Proof.Machine
end

