-- ==== Sys2Proof/Tests/Slice0.lean ====
section
/-! SUPPORT. The model's own tests. Every expected result stands in the spec: the encodings of 30_encoding.md section 7, the
rows V-E, V-B, V-F, V-H, V-R of 95_test_vectors.md, or a rule named beside it. The witness theorems show, for each statement
with hypotheses, a state and operands that meet them together. -/

namespace Sys2Proof.Tests

open Sys2Proof.Machine

/-! ## Small states -/

/-- A receiver of `len` stages with every bit 0. -/
def lowReceiver (len : Nat) : Receiver where
  sr := List.replicate len false
  out := List.replicate len false
  prevClk := false
  prevLatch := false

/-- An idle block with the digits `cells`, low receivers and the given host. -/
def blockOf (c : Config) (cells : List Code) (host : Driver) : State :=
  { State.resetFor c with
    dbuf := cells
    rx := lowReceiver c.nb
    chip := { regs := lowReceiver c.chainLength, oldOut := List.replicate c.chainLength false, draws := 0 }
    host := host }

/-- N = 4, B = 4, T_SHORT = 1, BCD4, DBUF = [3,0,9,5], idle, and a host that drives nothing. -/
def quiet : State := blockOf Config.reference [3, 0, 9, 5] (.trace [])

/-- The same with one command on the port in this cycle. -/
def commanded (op : OpCode) (data : Nat) : State := { quiet with host := .trace [commandInputs op data] }

/-- The same in the cycle of a transfer in which stream bit 15 is set up. -/
def sending : State := { quiet with fsm := .setup }

/-- The same with both flags set. -/
def flagged : State := { quiet with errDigit := true, errOp := true }

/-- N = 1, B = 1, T_SHORT = 1, ENC(7) = 1 (V-X13, V-F2). -/
def tiny : Config where
  n := 1
  b := 1
  tShort := 1
  n_pos := by decide
  b_pos := by decide
  tShort_pos := by decide
  enc := #v[0, 0, 0, 0, 0, 0, 0, 1, 0, 0, 0]
  tLong := 2
  startupBlank := false
  retryPolicy := .retry
  tClk := 1
  shortDelay := 1
  chainLength := 1

/-- N = 1, B = 2, T_SHORT = 2, ENC(d) = d mod 4, ENC(BLANK) = 3 (V-F3). -/
def slow : Config where
  n := 1
  b := 2
  tShort := 2
  n_pos := by decide
  b_pos := by decide
  tShort_pos := by decide
  enc := #v[0, 1, 2, 3, 0, 1, 2, 3, 0, 1, 3]
  tLong := 0
  startupBlank := false
  retryPolicy := .halt
  tClk := 1
  shortDelay := 1
  chainLength := 2

/-- The tiny block with DBUF = [7], idle. -/
def tinyIdle : State := blockOf tiny [7] (.trace [])

/-- The tiny block in the first SETUP cycle of a transfer. -/
def tinySetup : State := { tinyIdle with fsm := .setup }

/-- The tiny block with a transfer command on the port. -/
def tinyCommanded (op : OpCode) : State := { tinyIdle with host := .trace [commandInputs op 0] }

/-- What a run shows: DBUF, the flags, SRC and the sequencing state. -/
def shown (o : Host.Outcome State Fault Refusal) : Option (List Code × Bool × Bool × Bool × Sequencing) :=
  match o with
  | .next t => some (t.dbuf, t.errDigit, t.errOp, t.src, sequencingOf t)
  | .fault _ => none
  | .refused _ => none

/-- The state after a run. -/
def reached (o : Host.Outcome State Fault Refusal) : Option State :=
  match o with
  | .next t => some t
  | .fault _ => none
  | .refused _ => none

/-- Whether the host drives `rst = 0` in the next `k` cycles. -/
def quietFor : Nat → State → Bool
  | 0, _ => true
  | k + 1, s =>
    !(portInputs s).rst &&
      match step s with
      | .next t => quietFor k t
      | .fault _ => true
      | .refused _ => true

theorem noReset_of_quietFor {k : Nat} {s : State} (h : quietFor k s = true) : NoReset k s := by
  induction k generalizing s with
  | zero => intro j t hj; omega
  | succ k ih =>
    simp only [quietFor, Bool.and_eq_true, Bool.not_eq_true'] at h
    intro j t hj ht
    cases j with
    | zero =>
      have : s = t := by simpa [runFor] using ht
      exact this ▸ h.1
    | succ j =>
      cases hs : step s with
      | next u => exact ih (by simpa [hs] using h.2) j t (by omega) (by simpa [runFor, hs] using ht)
      | fault f => simp [runFor, hs] at ht
      | refused r => simp [runFor, hs] at ht

/-! ## Well-formed and ill-formed terms -/

theorem test_wf_load : (Instr.load [3, 0, 9, 5]).wf 4 = true ∧ (Instr.load [7]).wf 1 = true := by decide

theorem test_wf_load_short : (Instr.load [3, 0, 9]).wf 4 = false ∧ (Instr.load []).wf 1 = false := by decide

theorem test_wf_load_long : (Instr.load [3, 0, 9, 5, 1]).wf 4 = false := by decide

theorem test_wf_line_data_too_wide : (Line.cmd 7 0x10000).wf 4 = false ∧ (Line.cmd 7 0xFFFF).wf 4 = true := by decide

theorem test_wf_line_reset_zero : (Line.reset 0).wf 4 = false ∧ (Line.reset 1).wf 4 = true := by decide

theorem test_check_operand_count :
    (AsmLine.load [1, 2, 3]).check 4 = .error .operandCount ∧
    (AsmLine.showDigits [1, 2, 3, 4, 5]).check 4 = .error .operandCount := ⟨rfl, rfl⟩

theorem test_check_operand_above_15 :
    (AsmLine.load [1, 16, 2, 3]).check 4 = .error .operandAbove15 ∧ (AsmLine.load [1, 15, 2, 3]).check 4 = .ok () :=
  ⟨rfl, rfl⟩

theorem test_check_op_above_7 : (AsmLine.raw 8 0).check 4 = .error .opAbove7 := rfl

theorem test_check_data_too_wide :
    (AsmLine.raw 7 0x10000).check 4 = .error .dataTooWide ∧ (AsmLine.raw 7 0xFFFF).check 4 = .ok () := ⟨rfl, rfl⟩

theorem test_check_reset_zero : (AsmLine.reset 0).check 4 = .error .resetZero := rfl

/-- What the text of a line gives: nothing when it is rejected. -/
def assembled (text : String) : Option (List Line) :=
  match assembleText 4 [text.toList] with
  | .ok lines => some lines
  | .error _ => none

/-- R87: mnemonics in any case, operands position 0 first, a comment; R88: the pseudo-instruction. -/
theorem test_assemble_text :
    assembled "show 3, 0, 9, 5 ; W5" = some [.cmd 1 0x5903, .cmd 3 0] ∧
    assembled ".cmd 7, 0x1234" = some [.cmd 7 0x1234] := by decide

theorem test_assemble_rejects :
    assembled "JUMP 3" = none ∧ assembled "XFER 1" = none ∧ assembled "LOAD 1, 2, 3, x" = none := by decide

/-! ## Decoding: words of 30_encoding.md section 7 and of V-E -/

theorem test_decode_nop : decode 4 0b0000000000000000000 = .ok .nop := rfl

theorem test_decode_load : decode 4 0b0101100100000011001 = .ok (.load [3, 0, 9, 5]) := rfl

theorem test_decode_load_invalid_lanes :
    decode 4 0x54CC9 = .ok (.load [9, 9, 9, 10]) ∧ decode 4 0x7FFF9 = .ok (.load [15, 15, 15, 15]) := ⟨rfl, rfl⟩

theorem test_decode_load_other_n :
    decode 1 0x39 = .ok (.load [7]) ∧ decode 1 0x51 = .ok (.load [10]) ∧
    decode 2 0x0C9 = .ok (.load [9, 1]) ∧ decode 2 0x309 = .ok (.load [1, 6]) := ⟨rfl, rfl, rfl, rfl⟩

theorem test_decode_clear : decode 4 0b0000000000000000010 = .ok .clear := rfl

theorem test_decode_xfer : decode 4 0b0000000000000000011 = .ok .xfer ∧ decode 4 0x7FFFB = .ok .xfer := ⟨rfl, rfl⟩

theorem test_decode_blank : decode 4 0b0000000000000000100 = .ok .blank := rfl

theorem test_decode_clrerr : decode 4 0b0000000000000000101 = .ok .clrerr := rfl

theorem test_decode_rsvd6 : decode 4 0b0000000000000000110 = .ok .rsvd6 := rfl

theorem test_decode_rsvd7 : decode 4 0b0000000000000000111 = .ok .rsvd7 ∧ decode 4 0x091A7 = .ok .rsvd7 := ⟨rfl, rfl⟩

/-- R81: the longest word and the first number that is none. -/
theorem test_decode_width : decode 4 0x7FFFF = .ok .rsvd7 ∧ decode 4 0x80000 = .error .wordTooWide := ⟨rfl, rfl⟩

theorem test_encode :
    encode (.load [7, 2, 8, 1]) = 0x0C139 ∧ encode (.load [1, 10, 2, 3]) = 0x19509 ∧ encode .clrerr = 0x00005 := by
  decide

theorem test_decode_table_word : decodeTableWord 24 0x2C819 = some (.load [3, 0, 9, 5]) ∧
    decodeTableWord 8 4 = some .blank := ⟨rfl, rfl⟩

/-! ## One command each: rows of V-B, V-X1, V-X2 -/

/-- V-B16. -/
theorem test_nop : shown (exec .nop { quiet with errDigit := true }) =
    some ([3, 0, 9, 5], true, false, false, ⟨.idle, 0, 0, 0⟩) := by decide

/-- V-B9: a valid LOAD does not clear the flag. -/
theorem test_load : shown (exec (.load [1, 2, 3, 4]) { quiet with errDigit := true }) =
    some ([1, 2, 3, 4], true, false, false, ⟨.idle, 0, 0, 0⟩) := by decide

/-- V-B7: the highest lane alone is invalid, no lane is written. -/
theorem test_load_rejected : shown (exec (.load [9, 9, 9, 10]) quiet) =
    some ([3, 0, 9, 5], true, false, false, ⟨.idle, 0, 0, 0⟩) := by decide

/-- V-B12, V-B13. -/
theorem test_clear : shown (exec .clear flagged) =
    some ([15, 15, 15, 15], true, true, false, ⟨.idle, 0, 0, 0⟩) := by decide

/-- V-B14. -/
theorem test_clrerr : shown (exec .clrerr flagged) =
    some ([3, 0, 9, 5], false, false, false, ⟨.idle, 0, 0, 0⟩) := by decide

/-- V-B17. -/
theorem test_rsvd6 : shown (exec .rsvd6 quiet) =
    some ([3, 0, 9, 5], false, true, false, ⟨.idle, 0, 0, 0⟩) := by decide

/-- V-B18. -/
theorem test_rsvd7 : shown (exec .rsvd7 flagged) =
    some ([3, 0, 9, 5], true, true, false, ⟨.idle, 0, 0, 0⟩) := by decide

/-- V-F1, cycle a. -/
theorem test_xfer : shown (exec .xfer { quiet with src := true }) =
    some ([3, 0, 9, 5], false, false, false, ⟨.setup, 3, 3, 0⟩) := by decide

/-- R135, V-X2: SRC is 1 and DBUF is kept. -/
theorem test_blank : shown (exec .blank quiet) =
    some ([3, 0, 9, 5], false, false, true, ⟨.setup, 3, 3, 0⟩) := by decide

/-! ## The sequencer, the lines and the receiver: rows of V-F1, V-F3 -/

/-- V-F1, cycles a+7 and a+8: BIT 0 of position 3 is followed by BIT 3 of position 2. -/
theorem test_advance_next_position :
    sequencingOf (advance { quiet with fsm := .high, pos := 3, bit := 0 }) = ⟨.setup, 2, 3, 0⟩ := by decide

/-- V-F1, cycles a+31 and a+32. -/
theorem test_advance_last_bit :
    sequencingOf (advance { quiet with fsm := .high, pos := 0, bit := 0 }) = ⟨.lsetup, 0, 0, 0⟩ := by decide

/-- V-F3, cycles a+2 and a+3: T_SHORT = 2 counts TICK. -/
theorem test_advance_tick :
    sequencingOf (advance { blockOf slow [2] (.trace []) with fsm := .high, bit := 1 }) = ⟨.high, 0, 1, 1⟩ := by decide

/-- V-F1, cycle a+9: position 2 holds 9, whose bit 3 is 1. -/
theorem test_lines_high :
    linesOf { quiet with fsm := .high, pos := 2, bit := 3 } = ⟨true, true, false⟩ := by decide

/-- V-X8: ONEHOT10, the pattern of 3 has bit 3 alone. -/
theorem test_onehot10 :
    (List.range 10).map (patternBit { Config.reference with b := 10, b_pos := by decide, enc := Config.onehot10Table } 3) =
      [false, false, false, true, false, false, false, false, false, false] := by decide

/-- R44, V-B12: `dbuf_q`, position 0 in the lowest lane. -/
theorem test_dbuf_q : dbufQ quiet = 0x5903 ∧ dbufQ State.reset = 0xFFFF := by decide

/-- V-F1, cycle a+33: the latch rises and OUT takes SR. -/
theorem test_receiver_latch :
    (receiverStep 2 ⟨false, false, true⟩ ⟨[true, false], [false, false], false, false⟩).out = [true, false] := by decide

/-- V-F3, cycles a+6 and a+7: the bit enters stage 0, and there is no second rise. -/
theorem test_receiver_shift :
    (receiverStep 2 ⟨false, true, false⟩ ⟨[true, false], [false, false], false, false⟩).sr = [false, true] ∧
    (receiverStep 2 ⟨false, true, false⟩ ⟨[false, true], [false, false], true, false⟩).sr = [false, true] := by decide

/-! ## One cycle of the whole: rows of V-H, V-R, V-G -/

/-- V-H3: a command with `rst` is not accepted; V-G4: its error is not raised. -/
theorem test_reset_wins :
    shown (step { flagged with host := .trace [{ commandInputs 1 0x32A1 with rst := true }] }) =
      some ([15, 15, 15, 15], false, false, false, ⟨.idle, 0, 0, 0⟩) := by decide

/-- V-H5. -/
theorem test_no_valid : shown (step { quiet with host := .trace [⟨false, false, 1, 0x1234⟩] }) =
    some ([3, 0, 9, 5], false, false, false, ⟨.idle, 0, 0, 0⟩) := by decide

/-- V-H2: a LOAD presented while busy has no effect. -/
theorem test_busy_hold : shown (step { sending with host := .trace [commandInputs 1 0] }) =
    some ([3, 0, 9, 5], false, false, false, ⟨.high, 0, 0, 0⟩) := by decide

/-- R211: a command line held while busy stays the current line, and goes once accepted. -/
theorem test_program_hold :
    hostNext { sending with host := .program [.cmd 1 0, .waitrdy] } = .program [.cmd 1 0, .waitrdy] ∧
    hostNext { quiet with host := .program [.cmd 1 0, .waitrdy] } = .program [.waitrdy] := by decide

/-- Program P5, lines 6 and 7: once the last cycle of an IDLE is over, the RESET drives in that very cycle (R211). -/
theorem test_program_next_line :
    portInputs { quiet with host := .program [.idle 0, .reset 1] } = resetInputs ∧
    hostNext { quiet with host := .program [.idle 0, .reset 1] } = .program [.reset 0] := by decide

/-- R205: a draw of 10 is presented as it is; a draw of 26 is not truncated to 10 (R202). -/
theorem test_refresh_draws :
    portInputs { quiet with host := .refresh ⟨.drawing, [3, 10, 26, 9], [], 0⟩ } = ⟨false, true, 1, 0x9FA3⟩ := by decide

/-- The reset block runs a placed word. -/
theorem test_fetch_word :
    (reached (step (State.reset.withFetchWord 24 0x2C819))).map (fun t => (t.dbuf, t.errDigit)) =
      some ([3, 0, 9, 5], false) := by decide

/-! ## The hypotheses of the statements are met -/

theorem quiet_inv : quiet.Inv where
  length := by decide
  cells := by decide
  pos_lt := by decide
  bit_lt := by decide
  tick_lt := by decide
  idle_rest := by decide
  latch_rest := by decide
  used := by decide

theorem inv_host {s : State} (h : s.Inv) (host : Driver) : State.Inv { s with host := host } :=
  ⟨h.length, h.cells, h.pos_lt, h.bit_lt, h.tick_lt, h.idle_rest, h.latch_rest, h.used⟩

theorem tinyIdle_inv : tinyIdle.Inv where
  length := by decide
  cells := by decide
  pos_lt := by decide
  bit_lt := by decide
  tick_lt := by decide
  idle_rest := by decide
  latch_rest := by decide
  used := by decide

theorem tinySetup_inv : tinySetup.Inv where
  length := by decide
  cells := by decide
  pos_lt := by decide
  bit_lt := by decide
  tick_lt := by decide
  idle_rest := by decide
  latch_rest := by decide
  used := by decide

theorem witness_DecodeEncodeRoundTrip : (Instr.load [0, 9, 10, 15]).wf 4 = true ∧ Instr.clear.wf 4 = true := by decide

theorem witness_DecodedWordIsItsEncoding :
    decode 4 0x7FFF9 = .ok (.load [15, 15, 15, 15]) ∧ decode 4 0x7FFFF = .ok .rsvd7 := ⟨rfl, rfl⟩

theorem witness_EveryOpCodeIsListed : 0x7FFFF < 2 ^ (4 * 4 + 3) ∧ decode 4 0x7FFFF = .ok .rsvd7 := ⟨by decide, rfl⟩

theorem witness_LoadLanesAreTheDataBits : 3 < 4 ∧ 0 < 4 ∧ (0 : OpCode) ≠ 1 ∧ (7 : OpCode) ≠ 1 := by decide

theorem witness_DbufQShowsEveryCell : quiet.dbuf[3]? = some 5 ∧ quiet.dbuf[0]? = some 3 ∧ 3 < 4 := by decide

theorem witness_NopChangesNothing : sending.fsm ≠ .idle := by decide

theorem witness_LoadWritesAllCellsOrRaises :
    (∀ c ∈ ([0, 9, 9, 9] : List Code), c.toNat ≤ 9) ∧ (∃ c ∈ ([9, 9, 9, 10] : List Code), 9 < c.toNat) := by decide

theorem witness_ReservedCodesRaiseIllegalCommand : sending.fsm ≠ .idle := by decide

theorem witness_CommandFrames :
    (∃ t, exec (.load [1, 2, 3, 4]) quiet = .next t) ∧ Instr.load [1, 2, 3, 4] ≠ .xfer ∧
    Instr.load [1, 2, 3, 4] ≠ .blank ∧ (∃ t, exec .blank quiet = .next t) := ⟨⟨_, rfl⟩, by decide, by decide, ⟨_, rfl⟩⟩

theorem witness_StepRunsTheAcceptedCommand :
    (portInputs (commanded 1 0x4321)).rst = false ∧ (portInputs (commanded 1 0x4321)).cmdValid = true ∧
    (commanded 1 0x4321).fsm = .idle ∧
    decodeFields (commanded 1 0x4321).cfg.n (portInputs (commanded 1 0x4321)).cmdOp
      (portInputs (commanded 1 0x4321)).cmdData = .load [1, 2, 3, 4] ∧
    (∃ t, exec (.load [1, 2, 3, 4]) (commanded 1 0x4321) = .next t) := ⟨rfl, rfl, rfl, rfl, ⟨_, rfl⟩⟩

theorem witness_PlacedWordRunsNext :
    decode quiet.cfg.n 0x2C819 = .ok (.load [3, 0, 9, 5]) ∧ decode sending.cfg.n 0x7FFFB = .ok .xfer ∧
    0x2C819 < 2 ^ 19 ∧ 0x7FFFB < 2 ^ 19 ∧ quiet.fsm = .idle := ⟨rfl, rfl, by decide, by decide, rfl⟩

theorem witness_AcceptanceRule :
    accepts (commandInputs 1 0) quiet = true ∧
    (accepts (commandInputs 1 0) sending = false ∧ sending.fsm ≠ .idle) ∧
    (accepts { commandInputs 1 0 with rst := true } quiet = false ∧ ({ commandInputs 1 0 with rst := true } : Inputs).rst = true) ∧
    (accepts quietInputs quiet = false ∧ ((false : Bool) = true → quiet.fsm ≠ .idle ∨ quietInputs.rst = true)) := by decide

theorem witness_IdleStep :
    quiet.fsm = .idle ∧ (commandInputs 5 0).rst = false ∧ (commandInputs 5 0).cmdValid = true ∧
    quietInputs.rst = false ∧ quietInputs.cmdValid = false := by decide

/-- Every branch of the busy step: counting, SETUP, the three ends of HIGH, LSETUP and LHIGH. -/
theorem witness_BusyStep :
    quietInputs.rst = false ∧
    ({ blockOf slow [2] (.trace []) with fsm := .setup, tick := 0 } : State).tick < slow.tShort - 1 ∧
    ¬ ({ blockOf slow [2] (.trace []) with fsm := .setup, tick := 1 } : State).tick < slow.tShort - 1 ∧
    ({ quiet with fsm := .setup } : State).fsm = .setup ∧
    (({ quiet with fsm := .high, pos := 3, bit := 1 } : State).fsm = .high ∧ 0 < 1) ∧
    (({ quiet with fsm := .high, pos := 1, bit := 0 } : State).bit = 0 ∧ 0 < 1) ∧
    (({ quiet with fsm := .high, pos := 0, bit := 0 } : State).bit = 0 ∧
      ({ quiet with fsm := .high, pos := 0, bit := 0 } : State).pos = 0) ∧
    ({ quiet with fsm := .lsetup } : State).fsm = .lsetup ∧ ({ quiet with fsm := .lhigh } : State).fsm = .lhigh ∧
    ¬ quiet.tick < quiet.cfg.tShort - 1 := by decide

/-- The sending block in a cycle with `rst`. -/
def resetting : State := { sending with host := .trace [resetInputs] }

theorem witness_ResetFromAnyState : (portInputs resetting).rst = true := by decide

theorem witness_ResetStateAndOutputs :
    State.reset ∈ [State.resetFor Config.reference, State.reset] ∧ State.resetFor tiny ∈ [State.resetFor tiny, State.reset] :=
  ⟨List.mem_cons_self, List.mem_cons_self⟩

theorem witness_ErrorReporting :
    (0 : Nat) ≠ Cause.illegalCommand.statusBit ∧ (1 : Nat) ≠ Cause.invalidDigitValue.statusBit := by decide

/-- Each clause: a reset, a CLEAR, a LOAD of the highest digits, one with a lane of 10, and a cycle with nothing. -/
theorem witness_DbufChangesOnlyAsAWhole :
    ((∃ t, step resetting = .next t) ∧ (portInputs resetting).rst = true) ∧
    ((∃ t, step (commanded 2 0) = .next t) ∧ accepts (portInputs (commanded 2 0)) (commanded 2 0) = true ∧
      portInstr (portInputs (commanded 2 0)) (commanded 2 0) = .clear) ∧
    ((∃ t, step (commanded 1 0x9999) = .next t) ∧ accepts (portInputs (commanded 1 0x9999)) (commanded 1 0x9999) = true ∧
      portInstr (portInputs (commanded 1 0x9999)) (commanded 1 0x9999) = .load [9, 9, 9, 9]) ∧
    ((∃ t, step (commanded 1 0xA999) = .next t) ∧ accepts (portInputs (commanded 1 0xA999)) (commanded 1 0xA999) = true ∧
      portInstr (portInputs (commanded 1 0xA999)) (commanded 1 0xA999) = .load [9, 9, 9, 10]) ∧
    ((∃ t, step quiet = .next t) ∧ (portInputs quiet).rst = false ∧ accepts (portInputs quiet) quiet = false) :=
  ⟨⟨⟨_, rfl⟩, rfl⟩, ⟨⟨_, rfl⟩, by decide, by decide⟩, ⟨⟨_, rfl⟩, by decide, by decide⟩, ⟨⟨_, rfl⟩, by decide, by decide⟩,
    ⟨_, rfl⟩, rfl, by decide⟩

theorem witness_FlagsRiseAndFall :
    ((∃ t, step (commanded 1 0x32A1) = .next t) ∧ (commanded 1 0x32A1).errDigit = false ∧
      (commanded 1 0x32A1).errOp = false) ∧
    ((∃ t, step { flagged with host := .trace [commandInputs 5 0] } = .next t) ∧ flagged.errDigit = true ∧
      flagged.errOp = true) := ⟨⟨⟨_, rfl⟩, rfl, rfl⟩, ⟨⟨_, rfl⟩, rfl, rfl⟩⟩

theorem witness_SrcWrittenOnlyByTransfers :
    ((∃ t, step resetting = .next t) ∧ (portInputs resetting).rst = true) ∧
    ((∃ t, step (commanded 3 0) = .next t) ∧ accepts (portInputs (commanded 3 0)) (commanded 3 0) = true ∧
      portInstr (portInputs (commanded 3 0)) (commanded 3 0) = .xfer) ∧
    ((∃ t, step (commanded 4 0) = .next t) ∧ accepts (portInputs (commanded 4 0)) (commanded 4 0) = true ∧
      portInstr (portInputs (commanded 4 0)) (commanded 4 0) = .blank) ∧
    ((∃ t, step quiet = .next t) ∧ (portInputs quiet).rst = false ∧ accepts (portInputs quiet) quiet = false) :=
  ⟨⟨⟨_, rfl⟩, rfl⟩, ⟨⟨_, rfl⟩, by decide, by decide⟩, ⟨⟨_, rfl⟩, by decide, by decide⟩, ⟨⟨_, rfl⟩, rfl, by decide⟩⟩

theorem witness_FlagsDecideNothing : ∃ t, blockCycle (commandInputs 1 0x32A1) quiet = .next t := ⟨_, rfl⟩

theorem witness_ReceiversFeedNothingBack : ∃ t, runFor 4 tinySetup = .next t := ⟨_, rfl⟩

theorem witness_ParametersNeverChange : ∃ t, runFor 4 tinySetup = .next t := ⟨_, rfl⟩

theorem witness_StepIsTotal : quiet.Inv := quiet_inv

theorem witness_StopsExactlyOnUnusedPhases :
    (portInputs { quiet with fsm := .unused5 }).rst = false ∧
    step { quiet with fsm := .unused5 } = .fault .unusedPhase ∧ step { quiet with fsm := .unused7 } = .fault .unusedPhase ∧
    (∃ t, step { resetting with fsm := .unused6 } = .next t) := ⟨rfl, rfl, rfl, ⟨_, rfl⟩⟩

theorem witness_ResetEstablishesInvariants :
    (portInputs { resetting with fsm := .unused6, pos := 99, dbuf := [12] }).rst = true ∧
    ∃ t, step { resetting with fsm := .unused6, pos := 99, dbuf := [12] } = .next t := ⟨rfl, ⟨_, rfl⟩⟩

theorem witness_StepKeepsInvariants : quiet.Inv ∧ ∃ t, step quiet = .next t := ⟨quiet_inv, ⟨_, rfl⟩⟩

theorem tinyIdle_shaped : tinyIdle.ReceiversShaped := ⟨⟨rfl, rfl⟩, ⟨rfl, rfl⟩, rfl⟩

theorem witness_StepKeepsReceiverLengths : tinyIdle.ReceiversShaped ∧ ∃ t, step tinyIdle = .next t :=
  ⟨tinyIdle_shaped, ⟨_, rfl⟩⟩

theorem witness_CounterWidthsSuffice : quiet.Inv := quiet_inv

/-- The first cycle of a transfer and the cycle after its last. -/
theorem witness_TransferTimeline :
    sequencingOf tinySetup = ⟨.setup, tinySetup.cfg.n - 1, tinySetup.cfg.b - 1, 0⟩ ∧
    4 ≤ (2 * (tinySetup.cfg.n * tinySetup.cfg.b) + 2) * tinySetup.cfg.tShort ∧ NoReset 4 tinySetup ∧ NoReset 0 tinySetup :=
  ⟨by decide, by decide, noReset_of_quietFor (by decide), noReset_of_quietFor (by decide)⟩

theorem witness_ReadyWithinTheBound :
    tinyIdle.Inv ∧ NoReset ((2 * (tinyIdle.cfg.n * tinyIdle.cfg.b) + 2) * tinyIdle.cfg.tShort) tinyIdle :=
  ⟨tinyIdle_inv, noReset_of_quietFor (by decide)⟩

theorem witness_HeldCommandIsAccepted :
    State.Inv { tinyIdle with host := .program [.cmd 1 9, .waitrdy] } ∧
    ({ tinyIdle with host := .program [.cmd 1 9, .waitrdy] } : State).host = .program [.cmd 1 9, .waitrdy] :=
  ⟨inv_host tinyIdle_inv _, rfl⟩

/-- The SETUP and the HIGH cycle of the one bit. -/
theorem witness_BitstreamOnTheLines :
    sequencingOf tinySetup = ⟨.setup, tinySetup.cfg.n - 1, tinySetup.cfg.b - 1, 0⟩ ∧
    0 < tinySetup.cfg.n * tinySetup.cfg.b ∧ 2 * 0 * tinySetup.cfg.tShort ≤ 0 ∧ 1 < (2 * 0 + 2) * tinySetup.cfg.tShort ∧
    NoReset 1 tinySetup ∧ (∃ t, runFor 0 tinySetup = .next t) ∧ (∃ t, runFor 1 tinySetup = .next t) :=
  ⟨by decide, by decide, by decide, by decide, noReset_of_quietFor (by decide), ⟨_, rfl⟩, ⟨_, rfl⟩⟩

/-- The cycle before the clock rises, and the one before the latch rises. -/
theorem witness_RisingEdgesOfATransfer :
    sequencingOf tinySetup = ⟨.setup, tinySetup.cfg.n - 1, tinySetup.cfg.b - 1, 0⟩ ∧
    2 < (2 * (tinySetup.cfg.n * tinySetup.cfg.b) + 2) * tinySetup.cfg.tShort ∧ NoReset 3 tinySetup ∧
    (∃ t u, runFor 0 tinySetup = .next t ∧ runFor 1 tinySetup = .next u ∧ serClk t = false ∧ serClk u = true) ∧
    (∃ t u, runFor 2 tinySetup = .next t ∧ runFor 3 tinySetup = .next u ∧ serLatch t = false ∧ serLatch u = true) :=
  ⟨by decide, by decide, noReset_of_quietFor (by decide), ⟨_, _, rfl, rfl, by decide, by decide⟩,
    ⟨_, _, rfl, rfl, by decide, by decide⟩⟩

/-- The same transfer in a block with another flag and another host. -/
def tinyOther : State := { tinySetup with errOp := true, host := .program [.cmd 2 0] }

theorem witness_SameCodesSameTrace :
    tinySetup.cfg = tinyOther.cfg ∧ (∀ p, p < tinySetup.cfg.n → codeAt tinySetup p = codeAt tinyOther p) ∧
    sequencingOf tinySetup = ⟨.setup, tinySetup.cfg.n - 1, tinySetup.cfg.b - 1, 0⟩ ∧
    sequencingOf tinyOther = sequencingOf tinySetup ∧
    4 ≤ (2 * (tinySetup.cfg.n * tinySetup.cfg.b) + 2) * tinySetup.cfg.tShort ∧ NoReset 4 tinySetup ∧ NoReset 4 tinyOther ∧
    (∃ t, runFor 4 tinySetup = .next t) ∧ (∃ t, runFor 4 tinyOther = .next t) :=
  ⟨rfl, fun _ _ => rfl, by decide, by decide, by decide, noReset_of_quietFor (by decide), noReset_of_quietFor (by decide),
    ⟨_, rfl⟩, ⟨_, rfl⟩⟩

/-- XFER and BLANK; the cycle before the latch rises, that of the rise, and the last of the range. -/
theorem witness_CompleteTransferIsDisplayed :
    (∀ op ∈ ([3, 4] : List OpCode), (tinyCommanded op).Inv ∧
      (tinyCommanded op).rx.Shaped ((tinyCommanded op).cfg.n * (tinyCommanded op).cfg.b)) ∧
    (accepts (portInputs (tinyCommanded 3)) (tinyCommanded 3) = true ∧
      portInstr (portInputs (tinyCommanded 3)) (tinyCommanded 3) = .xfer) ∧
    (accepts (portInputs (tinyCommanded 4)) (tinyCommanded 4) = true ∧
      portInstr (portInputs (tinyCommanded 4)) (tinyCommanded 4) = .blank) ∧
    2 < (2 * (tiny.n * tiny.b) + 1) * tiny.tShort ∧ (2 * (tiny.n * tiny.b) + 1) * tiny.tShort ≤ 3 ∧
    4 ≤ (2 * (tiny.n * tiny.b) + 2) * tiny.tShort ∧
    NoReset 5 (tinyCommanded 3) ∧ NoReset 5 (tinyCommanded 4) ∧
    (∃ t, runFor 3 (tinyCommanded 3) = .next t) ∧ (∃ t, runFor 4 (tinyCommanded 3) = .next t) ∧
    (∃ t, runFor 5 (tinyCommanded 3) = .next t) ∧ (∃ t, runFor 4 (tinyCommanded 4) = .next t) ∧
    (tinyCommanded 3).dbuf[0]? = some 7 ∧ 0 < tiny.b :=
  ⟨fun _ _ => ⟨inv_host tinyIdle_inv _, ⟨rfl, rfl⟩⟩, by decide, by decide, by decide, by decide, by decide,
    noReset_of_quietFor (by decide), noReset_of_quietFor (by decide), ⟨_, rfl⟩, ⟨_, rfl⟩, ⟨_, rfl⟩, ⟨_, rfl⟩, by decide,
    by decide⟩

theorem witness_PatternsAreTheTable : 9 < 10 ∧ 0 < 10 ∧ 3 < Config.reference.b := by decide

theorem witness_LineLevelsByPhase :
    quiet.fsm = .idle ∧ sending.fsm = .setup ∧ ({ quiet with fsm := .high } : State).fsm = .high ∧
    ({ quiet with fsm := .lsetup } : State).fsm = .lsetup ∧ ({ quiet with fsm := .lhigh } : State).fsm = .lhigh ∧
    ({ quiet with fsm := .unused5 } : State).fsm.unused = true ∧
    ((({ quiet with fsm := .high, pos := 3 } : State).src = false ∧
      ({ quiet with fsm := .high, pos := 3 } : State).dbuf[3]? = some 5)) ∧
    (({ sending with src := true } : State).src = true ∧ (15 : Code) = 15#4) := by decide

/-- A clock rise, a latch rise and neither, in a chain of two stages. -/
theorem witness_ReferenceReceiverStep :
    1 < Config.reference.b ∧ (lowReceiver 2).Shaped 2 ∧ 1 ≤ 2 ∧ 0 + 1 < 2 ∧ (lowReceiver 2).prevClk = false ∧ (lowReceiver 2).prevLatch = false ∧
    (⟨true, true, false⟩ : Lines).clk = true ∧ (⟨false, false, true⟩ : Lines).latch = true ∧
    ¬ ((⟨false, false, false⟩ : Lines).clk = true ∧ (lowReceiver 2).prevClk = false) ∧
    ¬ ((⟨false, false, false⟩ : Lines).latch = true ∧ (lowReceiver 2).prevLatch = false) :=
  ⟨by decide, ⟨rfl, rfl⟩, by decide, by decide, by decide, by decide, by decide, by decide, by decide, by decide⟩

theorem witness_DataStableAtClockRise :
    serClk tinySetup = false ∧ ∃ t, step tinySetup = .next t ∧ serClk t = true := ⟨by decide, _, rfl, by decide⟩

theorem witness_DisplayChangesOnlyAtLatchRise :
    ((∃ t, step quiet = .next t) ∧ ¬ (serLatch quiet = true ∧ quiet.rx.prevLatch = false)) ∧
    ((∃ t, step { quiet with fsm := .lhigh } = .next t) ∧ serLatch { quiet with fsm := .lhigh } = true ∧
      quiet.rx.prevLatch = false) := ⟨⟨⟨_, rfl⟩, by decide⟩, ⟨⟨_, rfl⟩, by decide, by decide⟩⟩

theorem witness_ResetCutsATransfer :
    (portInputs resetting).rst = true ∧ (∃ t, step resetting = .next t) ∧ resetting.fsm ≠ .lhigh :=
  ⟨by decide, ⟨_, rfl⟩, by decide⟩

theorem witness_RealChipAfterResetCut :
    (serLatch { resetting with fsm := .lhigh } = true ∧ resetting.chip.regs.prevLatch = false) ∧
    ¬ (serLatch resetting = true ∧ resetting.chip.regs.prevLatch = false) ∧
    resetting.cfg.chipFaithful = true ∧ (portInputs resetting).rst = true ∧ (∃ t, step resetting = .next t) ∧
    resetting.fsm ≠ .lhigh ∧ (∃ t, step { resetting with fsm := .lhigh } = .next t) :=
  ⟨by decide, by decide, by decide, by decide, ⟨_, rfl⟩, by decide, ⟨_, rfl⟩⟩

theorem witness_RealChipFollowsReference :
    sending.ChipFollows ∧ (∃ t, step sending = .next t) ∧ (portInputs sending).rst = false ∧
    quiet.ChipFollows ∧ (∃ t, step { quiet with host := .trace [resetInputs] } = .next t) ∧ quiet.fsm = .idle :=
  ⟨⟨by decide, rfl⟩, ⟨_, rfl⟩, by decide, ⟨by decide, rfl⟩, ⟨_, rfl⟩, by decide⟩

theorem witness_ProgramLinesDriveThePort :
    ({ quiet with host := .program [.cmd 3 0] } : State).host = .program (.cmd 3 0 :: []) ∧
    ({ quiet with host := .program [.reset 1] } : State).host = .program (.reset (0 + 1) :: []) ∧
    ({ quiet with host := .program [.idle 1] } : State).host = .program (.idle (0 + 1) :: []) ∧
    ({ quiet with host := .program [.reset 0] } : State).host = .program (.reset 0 :: []) ∧
    ({ quiet with host := .program [.idle 0] } : State).host = .program (.idle 0 :: []) ∧
    (({ sending with host := .program [.waitrdy] } : State).host = .program (.waitrdy :: []) ∧ cmdReady sending = false) ∧
    (({ quiet with host := .program [.waitrdy] } : State).host = .program (.waitrdy :: []) ∧ cmdReady quiet = true) ∧
    ({ quiet with host := .program [] } : State).host = .program [] := by decide

/-- A program whose lines left take no cycle: ended in an idle block, not yet in a busy one. -/
theorem witness_EndOfTheRun :
    (State.Inv { tinyIdle with host := .program [.idle 0, .waitrdy] } ∧
      programDone (cmdReady { tinyIdle with host := .program [.idle 0, .waitrdy] }) [.idle 0, .waitrdy] = true ∧
      runEnded { tinyIdle with host := .program [.idle 0, .waitrdy] } = true) ∧
    (State.Inv { tinySetup with host := .program [.reset 0] } ∧
      programDone (cmdReady { tinySetup with host := .program [.reset 0] }) [.reset 0] = true ∧
      runEnded { tinySetup with host := .program [.reset 0] } = false) :=
  ⟨⟨inv_host tinyIdle_inv _, by decide, by decide⟩, ⟨inv_host tinySetup_inv _, by decide, by decide⟩⟩

theorem witness_AssemblerLines : ∃ lines, assembleLine 4 (.load [0, 9, 10, 15]) = .ok lines := ⟨_, rfl⟩

/-- The quiet block driven by the refresh loop. -/
def looping (phase : RefreshPhase) : State := { quiet with host := .refresh ⟨phase, [3, 10, 26, 15], [true], 0⟩ }

/-- The same with no stop signal to come. -/
def loopingOn (phase : RefreshPhase) : State := { quiet with host := .refresh ⟨phase, [3, 10, 26, 15], [], 0⟩ }

/-- R208, R209: the four ways to a stop check, T_LONG = 0 in the block `slow`. -/
theorem witness_AtStopCheck :
    AtStopCheck (looping .idle) ⟨.idle, [3, 10, 26, 15], [true], 0⟩ ∧
    AtStopCheck (looping (.waiting 0)) ⟨.waiting 0, [3, 10, 26, 15], [true], 0⟩ ∧
    AtStopCheck (looping .startupWait) ⟨.startupWait, [3, 10, 26, 15], [true], 0⟩ ∧
    AtStopCheck (blockOf slow [2] (.refresh ⟨.transferWait, [], [true], 0⟩)) ⟨.transferWait, [], [true], 0⟩ :=
  ⟨.inl rfl, .inr (.inl rfl), .inr (.inr ⟨rfl, .inl rfl⟩), .inr (.inr ⟨rfl, .inr ⟨rfl, rfl⟩⟩)⟩

/-- With the stops of `witness_AtStopCheck`. -/
theorem witness_StopIssuesBlankOnceAndNothingElse :
    (∀ p ∈ [RefreshPhase.waiting 0, .idle, .startupWait, .stopBlank, .stopWait, .stopped],
      (looping p).host = .refresh ⟨p, [3, 10, 26, 15], [true], 0⟩) ∧
    [true].headD false = true := by decide

theorem witness_RefreshLoopStartsAndTransfers :
    (∀ p ∈ [RefreshPhase.startupReset 0, .startupReset 1, .startupBlank, .startupWait, .transferring, .transferWait],
      (looping p).host = .refresh ⟨p, [3, 10, 26, 15], [true], 0⟩) ∧
    cmdReady { looping .startupWait with fsm := .setup } = false ∧ cmdReady (looping .startupWait) = true ∧
    cmdReady { looping .transferWait with fsm := .setup } = false ∧ cmdReady (looping .transferWait) = true := by decide

theorem witness_RefreshLoopReadsTheFlag :
    (looping .reading).host = .refresh ⟨.reading, [3, 10, 26, 15], [true], 0⟩ ∧ (looping .reading).errDigit = false ∧
    ({ looping .reading with errDigit := true } : State).errDigit = true ∧
    (looping .reading).cfg.retryPolicy = .retry ∧ { Config.reference with retryPolicy := .skip }.retryPolicy = .skip ∧
    slow.retryPolicy = .halt ∧
    (looping (.waiting 1)).host = .refresh ⟨.waiting (0 + 1), [3, 10, 26, 15], [true], 0⟩ := by decide

/-- No stop to come, with either value of the flag, and each point of Regenerating. -/
theorem witness_RefreshLoopRegenerates :
    AtStopCheck (loopingOn (.waiting 0)) ⟨.waiting 0, [3, 10, 26, 15], [], 0⟩ ∧
    (∀ p ∈ [RefreshPhase.waiting 0, .clearing, .drawing, .loading 0x5903],
      (loopingOn p).host = .refresh ⟨p, [3, 10, 26, 15], [], 0⟩) ∧
    ([] : List Bool).headD false = false ∧ (loopingOn (.waiting 0)).errDigit = false ∧
    ({ loopingOn (.waiting 0) with errDigit := true } : State).errDigit = true :=
  ⟨.inr (.inl rfl), by decide, rfl, rfl, rfl⟩

/-- Draws on both sides of 15, after a CLRERR and at a stop check. -/
theorem witness_DrawsAreNeverTruncated :
    (loopingOn .drawing).host = .refresh ⟨.drawing, [3, 10, 26, 15], [], 0⟩ ∧
    ((loopingOn .idle).host = .refresh ⟨.idle, [3, 10, 26, 15], [], 0⟩ ∧
      AtStopCheck (loopingOn .idle) ⟨.idle, [3, 10, 26, 15], [], 0⟩ ∧ ([] : List Bool).headD false = false ∧
      (loopingOn .idle).errDigit = false) ∧
    ([3, 10, 26, 15] : List Nat)[3]? = some 15 ∧ ([3, 10, 26, 15] : List Nat)[2]? = some 26 ∧ 15 ≤ 15 ∧ 15 < 26 :=
  ⟨rfl, ⟨rfl, .inl rfl, rfl, rfl⟩, rfl, rfl, by decide, by decide⟩

end Sys2Proof.Tests
end

/-! PROOFS of the family 10_state.md: the two sticky flags (R36, R37). Both obey one law, `StickyFlag`: commands of some
kind raise the flag, `rst` and CLRERR lower it, and nothing else writes it. The rise and the fall in one step follow from
the law, once for both flags. -/

namespace Sys2Proof.Machine

/-- A LOAD with a lane outside 0..9, which raises ERR_DIGIT (10_state.md R36, 40_buffer_commands.md R103). -/
def RaisesDigit (i : Instr) : Prop := ∃ lanes, i = .load lanes ∧ ∃ c ∈ lanes, 9 < c.toNat

/-- A reserved code, which raises ERR_OP (10_state.md R37, 40_buffer_commands.md R108). -/
def RaisesOp (i : Instr) : Prop := i = .rsvd6 ∨ i = .rsvd7

theorem raisesDigit_load_iff (lanes : List Code) : RaisesDigit (.load lanes) ↔ allValid lanes = false := by
  simp [RaisesDigit, allValid_false_iff]

theorem not_raisesDigit {i : Instr} (h : ∀ lanes, i ≠ .load lanes) : ¬ RaisesDigit i :=
  fun ⟨lanes, hi, _⟩ => h lanes hi

/-- ERR_DIGIT after a command, by command. -/
theorem exec_errDigit_iff {i : Instr} {s t : State} (h : exec i s = .next t) :
    t.errDigit = true ↔ RaisesDigit i ∨ (s.errDigit = true ∧ i ≠ .clrerr) := by
  rcases exec_next_cases h with ⟨rfl, rfl⟩ | ⟨lanes, rfl, hv, rfl⟩ | ⟨lanes, rfl, hv, rfl⟩ | ⟨rfl, rfl⟩ | ⟨rfl, rfl⟩ |
    ⟨rfl, rfl⟩ | ⟨rfl, rfl⟩ | ⟨rfl | rfl, rfl⟩
  case inr.inl => simp [raisesDigit_load_iff, hv]
  case inr.inr.inl => simp [raisesDigit_load_iff, hv]
  all_goals simp [not_raisesDigit]

/-- ERR_OP after a command, by command. -/
theorem exec_errOp_iff {i : Instr} {s t : State} (h : exec i s = .next t) :
    t.errOp = true ↔ RaisesOp i ∨ (s.errOp = true ∧ i ≠ .clrerr) := by
  rcases exec_next_cases h with ⟨rfl, rfl⟩ | ⟨lanes, rfl, -, rfl⟩ | ⟨lanes, rfl, -, rfl⟩ | ⟨rfl, rfl⟩ | ⟨rfl, rfl⟩ |
    ⟨rfl, rfl⟩ | ⟨rfl, rfl⟩ | ⟨rfl | rfl, rfl⟩ <;> simp [RaisesOp]

/-- The law of a sticky flag: what raises it, what lowers it, and that the rest of a clock edge keeps it. -/
structure StickyFlag (flag : State → Bool) (raises : Instr → Prop) : Prop where
  reset : ∀ s, flag (resetBlock s) = false
  advance : ∀ s, flag (advance s) = flag s
  settle : ∀ s t, flag (settle s t) = flag t
  exec_iff : ∀ {i s t}, exec i s = .next t → (flag t = true ↔ raises i ∨ (flag s = true ∧ i ≠ .clrerr))
  not_clrerr : ¬ raises .clrerr

theorem stickyFlag_errDigit : StickyFlag State.errDigit RaisesDigit where
  reset := resetBlock_errDigit
  advance := advance_errDigit
  settle := settle_errDigit
  exec_iff := exec_errDigit_iff
  not_clrerr := not_raisesDigit (by simp)

theorem stickyFlag_errOp : StickyFlag State.errOp RaisesOp where
  reset := resetBlock_errOp
  advance := advance_errOp
  settle := settle_errOp
  exec_iff := exec_errOp_iff
  not_clrerr := by simp [RaisesOp]

/-- The inputs lower the flags: `rst`, or an accepted CLRERR (10_state.md R36, R37). -/
def LowersFlags (inp : Inputs) (s : State) : Prop :=
  inp.rst = true ∨ (accepts inp s = true ∧ portInstr inp s = .clrerr)

theorem accepts_of_rst {inp : Inputs} (s : State) (h : inp.rst = true) : accepts inp s = false := by simp [accepts, h]

theorem rst_of_accepts {inp : Inputs} {s : State} (h : accepts inp s = true) : inp.rst = false :=
  ((accepts_iff inp s).mp h).1

namespace StickyFlag

variable {flag : State → Bool} {raises : Instr → Prop}

/-- The flag after a clock edge of the block: raised in it, or up before and not lowered in it. -/
theorem blockCycle_iff (hf : StickyFlag flag raises) {inp : Inputs} {s t : State} (h : blockCycle inp s = .next t) :
    flag t = true ↔
      (accepts inp s = true ∧ raises (portInstr inp s)) ∨ (flag s = true ∧ ¬ LowersFlags inp s) := by
  rcases blockCycle_next_cases h with ⟨hr, rfl⟩ | ⟨ha, he⟩ | ⟨hr, hi, hv, rfl⟩ | ⟨hr, hi, -, rfl⟩
  · simp [hf.reset, LowersFlags, accepts_of_rst s hr, hr]
  · simp [hf.exec_iff he, LowersFlags, ha, rst_of_accepts ha]
  · have ha : ¬ accepts inp t = true := by simp [accepts_iff, hv]
    simp [LowersFlags, ha, hr]
  · have ha : ¬ accepts inp s = true := by simp [accepts_iff, hi]
    simp [hf.advance, LowersFlags, ha, hr]

/-- No clock edge both raises and lowers the flag: `rst` takes no command, and CLRERR raises nothing. -/
theorem not_lowers_of_raises (hf : StickyFlag flag raises) {inp : Inputs} {s : State}
    (h : accepts inp s = true ∧ raises (portInstr inp s)) : ¬ LowersFlags inp s := by
  obtain ⟨ha, hraise⟩ := h
  rintro (hr | ⟨-, hc⟩)
  · simp [rst_of_accepts ha] at hr
  · exact hf.not_clrerr (hc ▸ hraise)

theorem step_iff (hf : StickyFlag flag raises) {s t : State} (h : step s = .next t) :
    flag t = true ↔
      (accepts (portInputs s) s = true ∧ raises (portInstr (portInputs s) s)) ∨
      (flag s = true ∧ ¬ LowersFlags (portInputs s) s) := by
  obtain ⟨u, hu, rfl⟩ := step_next_iff.mp h
  rw [hf.settle, hf.blockCycle_iff hu]

/-- A flag that is down rises in a step exactly with an accepted command that raises it. -/
theorem step_rises_iff (hf : StickyFlag flag raises) {s t : State} (h : step s = .next t) (hs : flag s = false) :
    flag t = true ↔ accepts (portInputs s) s = true ∧ raises (portInstr (portInputs s) s) := by
  simp [hf.step_iff h, hs]

/-- A flag that is up falls in a step exactly with `rst` or an accepted CLRERR. -/
theorem step_falls_iff (hf : StickyFlag flag raises) {s t : State} (h : step s = .next t) (hs : flag s = true) :
    flag t = false ↔ LowersFlags (portInputs s) s := by
  rw [← Bool.not_eq_true, hf.step_iff h]
  constructor
  · intro hkept
    by_contra hl
    exact hkept (.inr ⟨hs, hl⟩)
  · rintro hl (hr | ⟨-, hk⟩)
    · exact hf.not_lowers_of_raises hr hl
    · exact hk hl

end StickyFlag

/-- Settles O25: both flags obey the law of a sticky flag, whose rise and fall in one step are known. -/
theorem flagsRiseAndFall : Obligations.FlagsRiseAndFall := fun _ _ h =>
  ⟨stickyFlag_errDigit.step_rises_iff h, stickyFlag_errDigit.step_falls_iff h,
    stickyFlag_errOp.step_rises_iff h, stickyFlag_errOp.step_falls_iff h⟩

end Sys2Proof.Machine

/-! PROOFS of the family 20_memory.md: DBUF changes only as a whole (R66). Each command's effect on DBUF is said once, then
carried to a clock edge of the block; the receivers and the host beside it do not touch DBUF (`settle_dbuf`). -/

namespace Sys2Proof.Machine

/-- The commands that may write DBUF (20_memory.md R64). -/
def WritesDbuf (i : Instr) : Prop := i = .clear ∨ ∃ lanes, i = .load lanes

theorem exec_clear_dbuf {s t : State} (h : exec .clear s = .next t) : t.dbuf = List.replicate s.cfg.n blankCode := by
  cases h
  exact writeDbuf_dbuf s _

/-- A LOAD writes all of its lanes or none (40_buffer_commands.md R102, R103). -/
theorem exec_load_dbuf {lanes : List Code} {s t : State} (h : exec (.load lanes) s = .next t) :
    t.dbuf = if allValid lanes then lanes else s.dbuf := by
  cases h
  split <;> simp

theorem exec_dbuf_of_not_writesDbuf {i : Instr} {s t : State} (h : exec i s = .next t) (hw : ¬ WritesDbuf i) :
    t.dbuf = s.dbuf := by
  rcases exec_next_cases h with ⟨-, rfl⟩ | ⟨lanes, rfl, -, -⟩ | ⟨lanes, rfl, -, -⟩ | ⟨rfl, -⟩ | ⟨-, rfl⟩ | ⟨-, rfl⟩ |
    ⟨-, rfl⟩ | ⟨-, rfl⟩
  case inr.inl => exact absurd (.inr ⟨lanes, rfl⟩) hw
  case inr.inr.inl => exact absurd (.inr ⟨lanes, rfl⟩) hw
  case inr.inr.inr.inl => exact absurd (.inl rfl) hw
  all_goals rfl

/-- A LOAD on the port has N lanes (20_memory.md R65, 30_encoding.md R83). -/
theorem length_of_portInstr_load {inp : Inputs} {s : State} {lanes : List Code} (h : portInstr inp s = .load lanes) :
    lanes.length = s.cfg.n := by
  unfold portInstr decodeFields at h
  split at h <;> cases h
  exact lanesOf_length _ _

theorem exec_of_accepts {inp : Inputs} {s t : State} (ha : accepts inp s = true) (h : blockCycle inp s = .next t) :
    exec (portInstr inp s) s = .next t :=
  (blockCycle_accept ha).symm.trans h

theorem blockCycle_dbuf_of_rst {inp : Inputs} {s t : State} (hr : inp.rst = true) (h : blockCycle inp s = .next t) :
    t.dbuf = List.replicate s.cfg.n blankCode := by
  cases (blockCycle_rst s hr).symm.trans h
  exact resetBlock_dbuf s

/-- Outside `rst` nothing but an accepted CLEAR or LOAD writes DBUF (10_state.md R30). -/
theorem blockCycle_dbuf_of_not_written {inp : Inputs} {s t : State} (hr : inp.rst = false)
    (hw : ¬ (accepts inp s = true ∧ WritesDbuf (portInstr inp s))) (h : blockCycle inp s = .next t) :
    t.dbuf = s.dbuf := by
  rcases blockCycle_next_cases h with ⟨hr', -⟩ | ⟨ha, he⟩ | ⟨-, -, -, rfl⟩ | ⟨-, -, -, rfl⟩
  · simp [hr] at hr'
  · exact exec_dbuf_of_not_writesDbuf he fun hi => hw ⟨ha, hi⟩
  · rfl
  · exact advance_dbuf s

/-- Settles O24: reset, CLEAR and LOAD by their effect on DBUF at the block's clock edge, every other cycle by the frame. -/
theorem dbufChangesOnlyAsAWhole : Obligations.DbufChangesOnlyAsAWhole := by
  intro s t h
  obtain ⟨u, hu, rfl⟩ := step_next_iff.mp h
  rw [settle_dbuf]
  refine ⟨fun hr => blockCycle_dbuf_of_rst hr hu, fun ha hi => ?clear, fun lanes ha hi => ?load,
    fun hr hw => blockCycle_dbuf_of_not_written hr hw hu⟩
  case clear => exact exec_clear_dbuf (hi ▸ exec_of_accepts ha hu)
  case load =>
    have hd : u.dbuf = if allValid lanes then lanes else s.dbuf := exec_load_dbuf (hi ▸ exec_of_accepts ha hu)
    refine ⟨length_of_portInstr_load hi, fun hv => ?_, fun hv => ?_⟩
    · simpa [(allValid_iff lanes).mpr hv] using hd
    · simpa [(allValid_false_iff lanes).mpr hv] using hd

end Sys2Proof.Machine

/-! PROOFS of the family 30_encoding.md: acceptance (R84). Where no command is accepted, `rst` and the state alone decide
the block's cycle: each branch of R165 that is left reads no other input. -/

namespace Sys2Proof.Machine

theorem accepts_false_iff (inp : Inputs) (s : State) :
    accepts inp s = false ↔ (inp.cmdValid = true → s.fsm ≠ .idle ∨ inp.rst = true) := by
  rw [← Bool.not_eq_true, accepts_iff]
  cases inp.rst <;> simp

theorem cmdValid_of_not_accepts {inp : Inputs} {s : State} (hr : inp.rst = false) (hi : s.fsm = .idle)
    (h : accepts inp s = false) : inp.cmdValid = false := by
  simpa [hr, hi] using (accepts_false_iff inp s).mp h

theorem blockCycle_eq_of_not_accepts {inp inp' : Inputs} {s : State} (hr : inp'.rst = inp.rst)
    (h : accepts inp s = false) (h' : accepts inp' s = false) : blockCycle inp s = blockCycle inp' s := by
  cases hrst : inp.rst with
  | true => rw [blockCycle_rst s hrst, blockCycle_rst s (hr.trans hrst)]
  | false =>
    have hrst' : inp'.rst = false := hr.trans hrst
    by_cases hi : s.fsm = .idle
    · rw [blockCycle_quiet hrst hi (cmdValid_of_not_accepts hrst hi h),
        blockCycle_quiet hrst' hi (cmdValid_of_not_accepts hrst' hi h')]
    · cases hu : s.fsm.unused with
      | true => rw [blockCycle_unused hrst hu, blockCycle_unused hrst' hu]
      | false => rw [blockCycle_busy hrst hi hu, blockCycle_busy hrst' hi hu]

/-- Settles O18: the rule of acceptance, and the equality of any two cycles that accept nothing. -/
theorem acceptanceRule : Obligations.AcceptanceRule := fun inp s =>
  ⟨accepts_iff inp s, cmdReady_iff s, blockCycle_accept, fun h _ _ _ hv =>
    blockCycle_eq_of_not_accepts rfl h ((accepts_false_iff _ s).mpr hv)⟩

end Sys2Proof.Machine

/-! PROOFS of the family 40_buffer_commands.md: the buffer and control commands, each by its op (R82), its effect at the
accepting edge, and, for NOP and the reserved codes, its being held while busy (R84). -/

namespace Sys2Proof.Machine

theorem exec_load_of_allValid {lanes : List Code} (s : State) (hv : allValid lanes = true) :
    exec (.load lanes) s = .next (writeDbuf lanes s) := by
  simp [exec, execLoad, hv]

theorem exec_load_of_not_allValid {lanes : List Code} (s : State) (hv : allValid lanes = false) :
    exec (.load lanes) s = .next (raiseError .invalidDigitValue s) := by
  simp [exec, execLoad, hv]

theorem exec_clear (s : State) : exec .clear s = .next (writeDbuf (List.replicate s.cfg.n blankCode) s) := rfl

theorem exec_clrerr (s : State) : exec .clrerr s = .next (clearErrors s) := rfl

theorem exec_rsvd6 (s : State) : exec .rsvd6 s = .next (raiseError .illegalCommand s) := rfl

theorem exec_rsvd7 (s : State) : exec .rsvd7 s = .next (raiseError .illegalCommand s) := rfl

theorem not_accepts_of_busy (inp : Inputs) {s : State} (hb : s.fsm ≠ .idle) : accepts inp s = false :=
  (accepts_false_iff inp s).mpr fun _ => .inl hb

/-- Any command presented while busy is held: the cycle is the one with no command (30_encoding.md R84). -/
theorem blockCycle_command_of_busy (op : OpCode) (data : Nat) {s : State} (hb : s.fsm ≠ .idle) :
    blockCycle (commandInputs op data) s = blockCycle quietInputs s :=
  blockCycle_eq_of_not_accepts rfl (not_accepts_of_busy _ hb) (not_accepts_of_busy _ hb)

/-- Settles O7: NOP's arm answers the state it was given, and the busy hold is that of every command. -/
theorem nopChangesNothing : Obligations.NopChangesNothing :=
  ⟨fun _ _ => rfl, fun _ => rfl, fun _ data hb => blockCycle_command_of_busy 0 data hb⟩

/-- Settles O8: the two cases of the lanes are the two values of `allValid`. -/
theorem loadWritesAllCellsOrRaises : Obligations.LoadWritesAllCellsOrRaises := by
  refine ⟨fun n d => ⟨rfl, lanesOf_length n d⟩, fun lanes s => ⟨fun hv => ?valid, fun hv => ?invalid⟩⟩
  case valid => exact exec_load_of_allValid s ((allValid_iff lanes).mpr hv)
  case invalid => exact exec_load_of_not_allValid s ((allValid_false_iff lanes).mpr hv)

/-- Settles O9: CLEAR is a whole-buffer write of BLANK, whose code is 15 (10_state.md R31). -/
theorem clearBlanksEveryCell : Obligations.ClearBlanksEveryCell :=
  ⟨fun _ _ => rfl, exec_clear⟩

/-- Settles O10: CLRERR is the way back from both errors (60_exceptions.md R237). -/
theorem clrerrLowersBothFlags : Obligations.ClrerrLowersBothFlags :=
  ⟨fun _ _ => rfl, exec_clrerr⟩

/-- Settles O11: both codes are the entry of the error IllegalCommand, and the busy hold is that of every command. -/
theorem reservedCodesRaiseIllegalCommand : Obligations.ReservedCodesRaiseIllegalCommand :=
  ⟨fun _ _ => ⟨rfl, rfl⟩, fun s => ⟨exec_rsvd6 s, exec_rsvd7 s⟩,
    fun _ data hb => ⟨blockCycle_command_of_busy 6 data hb, blockCycle_command_of_busy 7 data hb⟩⟩

end Sys2Proof.Machine

/-! PROOFS of the family 42_line_fsm.md: the idle and the busy step (R162, R163), the levels of the lines by phase (R170)
and the reference receiver (R180). -/

namespace Sys2Proof.Machine

/-! ## The step of an idle and of a busy block -/

/-- Settles O19: in IDLE without `rst` a command presented is accepted, and a cycle without one is quiet. -/
theorem idleStep : Obligations.IdleStep := fun inp s hi hr =>
  ⟨fun hv => blockCycle_accept ((accepts_iff inp s).mpr ⟨hr, hv, hi⟩), blockCycle_quiet hr hi⟩

/-- The four busy phases are the codes of FSM that are neither IDLE nor unused (42_line_fsm.md R160). -/
theorem busy_phase_iff (s : State) :
    (s.fsm = .setup ∨ s.fsm = .high ∨ s.fsm = .lsetup ∨ s.fsm = .lhigh) ↔ s.fsm ≠ .idle ∧ s.fsm.unused = false := by
  refine ⟨?_, fun ⟨hi, hu⟩ => busy_phase_cases s hi hu⟩
  rintro (h | h | h | h) <;> rw [h] <;> decide

theorem blockCycle_counts {inp : Inputs} {s : State} (hr : inp.rst = false)
    (hi : s.fsm ≠ .idle) (hu : s.fsm.unused = false) (ht : s.tick < s.cfg.tShort - 1) :
    blockCycle inp s = .next { s with tick := s.tick + 1 } := by
  rw [blockCycle_busy hr hi hu, advance_counts s ht]

theorem blockCycle_ends {inp : Inputs} {s : State} (hr : inp.rst = false)
    (hi : s.fsm ≠ .idle) (hu : s.fsm.unused = false) (ht : ¬ s.tick < s.cfg.tShort - 1) :
    blockCycle inp s = .next (endPhase s) := by
  rw [blockCycle_busy hr hi hu, advance_ends s ht]

/-- Settles O20: a busy block counts or ends its phase, and each end of a phase is a row of R163's table. -/
theorem busyStep : Obligations.BusyStep := by
  intro inp s hr hb
  obtain ⟨hi, hu⟩ := (busy_phase_iff s).mp hb
  refine ⟨blockCycle_counts hr hi hu, fun ht => ?_⟩
  rw [blockCycle_ends hr hi hu ht]
  refine ⟨fun h => ?setup, fun h hbit => ?nextBit, fun h hbit hpos => ?nextPosition, fun h hbit hpos => ?lastBit,
    fun h => ?lsetup, fun h => ?lhigh⟩
  case setup => rw [endPhase_setup s h]
  case nextBit => rw [endPhase_high_bit s h hbit]
  case nextPosition => rw [endPhase_high_pos s h hbit hpos]
  case lastBit => rw [endPhase_high_last s h hbit hpos]
  case lsetup => rw [endPhase_lsetup s h]
  case lhigh => rw [endPhase_lhigh s h]

/-! ## The lines in each phase -/

/-- `code(p)` wherever DBUF has a cell p or SRC is 1: never the free value of log 8 (41_transfer_commands.md R131). -/
theorem codeAt_eq_of_src {s : State} {p : Nat} {c : Code}
    (hc : (s.src = true ∧ c = 15#4) ∨ (s.src = false ∧ s.dbuf[p]? = some c)) : codeAt s p = c := by
  rcases hc with ⟨hs, rfl⟩ | ⟨hs, hp⟩
  · simp [codeAt, hs, blankCode]
  · simp [codeAt, hs, hp]

/-- The two phases of a bit differ in SER_CLK alone (42_line_fsm.md R170). -/
theorem linesOf_shifting {s : State} (h : s.fsm = .setup ∨ s.fsm = .high) :
    linesOf s = ⟨patternBit s.cfg (codeAt s s.pos) s.bit, decide (s.fsm = .high), false⟩ := by
  rw [linesOf, serData_shifting h]
  rcases h with h | h <;> simp [serClk, serLatch, h]

/-- Outside the two phases of a bit only SER_LATCH can be high (42_line_fsm.md R170). -/
theorem linesOf_not_shifting {s : State} (h : s.fsm ≠ .setup) (h' : s.fsm ≠ .high) :
    linesOf s = ⟨false, false, decide (s.fsm = .lhigh)⟩ := by
  cases hf : s.fsm with
  | setup => exact absurd hf h
  | high => exact absurd hf h'
  | _ => simp [linesOf, serData, serClk, serLatch, hf]

/-- Settles O45: the lines of SETUP and HIGH carry the bit being shifted, those of every other code of FSM carry none. -/
theorem lineLevelsByPhase : Obligations.LineLevelsByPhase := by
  intro s
  refine ⟨linesOf_idle, fun c hc => ⟨fun h => ?setup, fun h => ?high⟩, fun h => ?lsetup, fun h => ?lhigh,
    fun h => ?unused⟩
  case setup => simp [linesOf_shifting (.inl h), codeAt_eq_of_src hc, h]
  case high => simp [linesOf_shifting (.inr h), codeAt_eq_of_src hc, h]
  case lsetup => simp [linesOf_not_shifting, h]
  case lhigh => simp [linesOf_not_shifting, h]
  case unused => rcases (unused_iff s.fsm).mp h with h | h | h <;> simp [linesOf_not_shifting, h]

/-! ## The reference receiver -/

theorem tubePattern_getElem? (cfg : Config) (out : List Bool) (p : Nat) {b : Nat} (hb : b < cfg.b) :
    (tubePattern cfg out p)[b]? = out[p * cfg.b + b]? := by
  rw [tubePattern, List.getElem?_take_of_lt hb, List.getElem?_drop]

section rise
variable {len : Nat} {l : Lines} {r : Receiver} (hclk : l.clk = true) (hprev : r.prevClk = false)
include hclk hprev

theorem receiverStep_sr_rise_zero (hlen : 1 ≤ len) : (receiverStep len l r).sr[0]? = some l.data := by
  rw [receiverStep_sr_rise len l r hclk hprev, List.getElem?_take_of_lt hlen, List.getElem?_cons_zero]

theorem receiverStep_sr_rise_succ {i : Nat} (hi : i + 1 < len) : (receiverStep len l r).sr[i + 1]? = r.sr[i]? := by
  rw [receiverStep_sr_rise len l r hclk hprev, List.getElem?_take_of_lt hi, List.getElem?_cons_succ]

end rise

/-- Settles O46: the shift by stage, the rest by the laws of the receiver's cycle. -/
theorem referenceReceiverStep : Obligations.ReferenceReceiverStep :=
  ⟨fun cfg out p _ hb => tubePattern_getElem? cfg out p hb, fun len l r hs hlen =>
    ⟨fun hc hp => ⟨receiverStep_sr_rise_zero hc hp hlen, fun _ hi => receiverStep_sr_rise_succ hc hp hi⟩,
      receiverStep_sr_hold len l r, receiverStep_out_rise len l r, receiverStep_out_hold len l r,
      receiverStep_shaped l hs, receiverStep_prevClk len l r, receiverStep_prevLatch len l r⟩⟩

end Sys2Proof.Machine

/-! PROOFS of the family 70_reset_and_hazards.md: the reset edge (R260). -/

namespace Sys2Proof.Machine

/-- The reset is the block's alone: the receivers and the host take their own step beside it (42_line_fsm.md R181). -/
theorem step_of_rst {s : State} (hr : (portInputs s).rst = true) : step s = .next (settle s (resetBlock s)) :=
  step_of_block (blockCycle_rst s hr)

/-- Settles O21: `rst` comes before every other branch of the block's cycle, and what moves on beside the block leaves the
registers as the reset wrote them. -/
theorem resetFromAnyState : Obligations.ResetFromAnyState := by
  intro s hr
  refine ⟨settle s (resetBlock s), step_of_rst hr, ?_⟩
  simp [blankCode]

end Sys2Proof.Machine

/-! PROOFS of the family 30_encoding.md, words: what decoding an encoded command gives back, what a word that decodes
must be, and the lanes on the wires (R63 a, R80 to R83). -/

namespace Sys2Proof

/-- A well-formed command fits in W_CMD bits, the law of each command put together (30_encoding.md R80, R81). -/
theorem encode_lt {n : Nat} {i : Instr} (h : i.wf n = true) : encode i < 2 ^ cmdWidth n := by
  cases i with
  | nop => exact Laws.EncodeFits.nop n h
  | load lanes => exact Laws.EncodeFits.load lanes n h
  | clear => exact Laws.EncodeFits.clear n h
  | xfer => exact Laws.EncodeFits.xfer n h
  | blank => exact Laws.EncodeFits.blank n h
  | clrerr => exact Laws.EncodeFits.clrerr n h
  | rsvd6 => exact Laws.EncodeFits.rsvd6 n h
  | rsvd7 => exact Laws.EncodeFits.rsvd7 n h

theorem decode_of_lt {n w : Nat} (h : w < 2 ^ cmdWidth n) :
    decode n w = .ok (decodeFields n (BitVec.ofNat 3 w) (w >>> 3)) := if_pos h

theorem decode_of_not_lt {n w : Nat} (h : ¬ w < 2 ^ cmdWidth n) : decode n w = .error .wordTooWide := if_neg h

theorem decode_eq_ok_iff {n w : Nat} {i : Instr} :
    decode n w = .ok i ↔ w < 2 ^ cmdWidth n ∧ decodeFields n (BitVec.ofNat 3 w) (w >>> 3) = i := by
  by_cases h : w < 2 ^ cmdWidth n
  · simp [decode_of_lt h, h]
  · simp [decode_of_not_lt h, h]

/-- Every code is one of the eight of R82. -/
theorem opCode_cases (op : OpCode) :
    op = 0 ∨ op = 1 ∨ op = 2 ∨ op = 3 ∨ op = 4 ∨ op = 5 ∨ op = 6 ∨ op = 7 := by
  revert op; decide

/-- The wires of a well-formed command carry that command. -/
theorem decodeFields_opOf_dataOf {n : Nat} {i : Instr} (h : i.wf n = true) :
    decodeFields n (opOf i) (dataOf i) = i := by
  cases i with
  | load lanes =>
    have hn : lanes.length = n := by simpa [Instr.wf] using h
    exact hn ▸ congrArg Instr.load (lanesOf_packLanes lanes)
  | _ => rfl

theorem opOf_decodeFields (n : Nat) (op : OpCode) (d : Nat) : opOf (decodeFields n op d) = op := by
  rcases opCode_cases op with rfl | rfl | rfl | rfl | rfl | rfl | rfl | rfl <;> rfl

theorem wf_decodeFields (n : Nat) (op : OpCode) (d : Nat) : (decodeFields n op d).wf n = true := by
  rcases opCode_cases op with rfl | rfl | rfl | rfl | rfl | rfl | rfl | rfl
  case inr.inl => exact beq_iff_eq.mpr (lanesOf_length n d)
  all_goals rfl

/-- Only LOAD reads the data wires (30_encoding.md R83). -/
theorem decodeFields_congr_data {n : Nat} {op : OpCode} (d d' : Nat) (h : op ≠ 1) :
    decodeFields n op d = decodeFields n op d' := by
  rcases opCode_cases op with rfl | rfl | rfl | rfl | rfl | rfl | rfl | rfl
  case inr.inl => exact absurd rfl h
  all_goals rfl

/-- The data of a word of W_CMD bits has 4N bits (30_encoding.md R80). -/
theorem shiftRight_lt_of_lt_cmdWidth {n w : Nat} (h : w < 2 ^ cmdWidth n) : w >>> 3 < 2 ^ (4 * n) := by
  simp only [cmdWidth, Nat.pow_add] at h
  rw [Nat.shiftRight_eq_div_pow]
  omega

/-- Data wires of 4N bits are the packing of their lanes (20_memory.md R63 a). -/
theorem packLanes_lanesOf_of_lt {n d : Nat} (h : d < 2 ^ (4 * n)) : packLanes (lanesOf n d) = d :=
  packLanes_lanesOf n d (two_pow_four_mul n ▸ h)

/-- Settles O1: the word fits, its op and data come back from it, and they carry the command. -/
theorem decodeEncodeRoundTrip : Obligations.DecodeEncodeRoundTrip := by
  intro n i h
  rw [decode_of_lt (encode_lt h), encode, wordOf_op, wordOf_shift, decodeFields_opOf_dataOf h]

/-- Settles O2: the op selects the command, and the lanes of a LOAD pack to the data they were read from. -/
theorem decodedWordIsItsEncoding : Obligations.DecodedWordIsItsEncoding := by
  intro n w i h
  obtain ⟨hw, rfl⟩ := decode_eq_ok_iff.mp h
  have hop := opOf_decodeFields n (BitVec.ofNat 3 w) (w >>> 3)
  refine ⟨wf_decodeFields .., hop, fun lanes hl => ?_⟩
  rw [hl] at hop ⊢
  have hlanes : lanes = lanesOf n (w >>> 3) := by rw [← hop] at hl; exact (Instr.load.inj hl).symm
  have hdata : dataOf (.load lanes) = w >>> 3 := by
    rw [hlanes]; exact packLanes_lanesOf_of_lt (shiftRight_lt_of_lt_cmdWidth hw)
  rw [encode, hop, hdata, wordOf_fields]

/-- Settles O3: a number decodes when it has a W_CMD-bit form, and the eight codes are the eight rows of R82. -/
theorem everyOpCodeIsListed : Obligations.EveryOpCodeIsListed := by
  refine ⟨fun n w => ?_, fun _ _ => ⟨rfl, rfl, rfl, rfl, rfl, rfl, rfl, rfl⟩⟩
  simp [decode_eq_ok_iff, cmdWidth]

/-- Settles O4: nine fixed words, each decoded by evaluation. -/
theorem workedEncodingsDecode : Obligations.WorkedEncodingsDecode :=
  ⟨rfl, rfl, rfl, rfl, rfl, rfl, rfl, rfl, rfl⟩

theorem lanesOf_getElem? {n p : Nat} (d : Nat) (hp : p < n) : (lanesOf n d)[p]? = some (laneOf d p) := by
  simp [lanesOf, hp]

/-- Settles O5: lane p is `laneOf d p`, whose bits are those of the wires. -/
theorem loadLanesAreTheDataBits : Obligations.LoadLanesAreTheDataBits :=
  ⟨fun _ d p b hp hb => ⟨laneOf d p, lanesOf_getElem? d hp, laneOf_getLsbD d p b hb⟩, lanesOf_length,
    fun _ d d' _ h => decodeFields_congr_data d d' h⟩

/-- Settles O6: `dbuf_q` is the packing of the cells. -/
theorem dbufQShowsEveryCell : Obligations.DbufQShowsEveryCell := fun s =>
  ⟨fun p b c hp hb => packLanes_testBit s.dbuf p b c hp hb, two_pow_four_mul s.dbuf.length ▸ packLanes_lt s.dbuf⟩

end Sys2Proof

/-! PROOFS on 10_state.md R43: the invariants at reset, after a reset edge, and through every command, every busy
advance and so every step. -/

namespace Sys2Proof.Machine

theorem validDigit_of_allValid {lanes : List Code} (h : allValid lanes = true) : ∀ c ∈ lanes, validDigit c = true :=
  List.all_eq_true.mp h

/-- A write of N storable cells keeps the invariants (10_state.md R30, R31). -/
theorem State.Inv.writeDbuf {s : State} (h : s.Inv) {cells : List Code} (hl : cells.length = s.cfg.n)
    (hc : ∀ c ∈ cells, storable c = true) : (writeDbuf cells s).Inv :=
  { h with length := hl, cells := hc }

theorem State.Inv.raiseError {s : State} (h : s.Inv) (c : Cause) : (raiseError c s).Inv := by
  cases c <;> exact { h with }

theorem State.Inv.clearErrors {s : State} (h : s.Inv) : (clearErrors s).Inv := { h with }

theorem State.Inv.startTransfer {s : State} (h : s.Inv) (src : Bool) : (startTransfer src s).Inv where
  length := h.length
  cells := h.cells
  pos_lt := Nat.sub_one_lt_of_lt s.cfg.n_pos
  bit_lt := Nat.sub_one_lt_of_lt s.cfg.b_pos
  tick_lt := s.cfg.tShort_pos
  idle_rest := by simp
  latch_rest := by simp
  used := by rw [startTransfer_fsm]; decide

theorem storable_replicate_blankCode (n : Nat) : ∀ c ∈ List.replicate n blankCode, storable c = true := by
  intro c hc
  rw [List.eq_of_mem_replicate hc]
  decide

/-- The reset values satisfy the invariants in any block (10_state.md R44). -/
theorem resetBlock_inv (s : State) : (resetBlock s).Inv where
  length := by simp
  cells := storable_replicate_blankCode s.cfg.n
  pos_lt := s.cfg.n_pos
  bit_lt := s.cfg.b_pos
  tick_lt := s.cfg.tShort_pos
  idle_rest := by simp
  latch_rest := by simp
  used := by rw [resetBlock_fsm]; decide

theorem State.Inv.settle {t : State} (h : t.Inv) (s : State) : (settle s t).Inv := { h with }

/-- A command that is well formed for the block keeps the invariants (10_state.md R43). -/
theorem State.Inv.exec {i : Instr} {s t : State} (h : s.Inv) (hw : i.wf s.cfg.n = true) (he : exec i s = .next t) :
    t.Inv := by
  rcases exec_next_cases he with ⟨-, rfl⟩ | ⟨lanes, rfl, hv, rfl⟩ | ⟨lanes, -, -, rfl⟩ | ⟨-, rfl⟩ | ⟨-, rfl⟩ |
    ⟨-, rfl⟩ | ⟨-, rfl⟩ | ⟨-, rfl⟩
  · exact h
  · exact h.writeDbuf (by simpa [Instr.wf] using hw) fun c hc => storable_of_valid (validDigit_of_allValid hv c hc)
  · exact h.raiseError _
  · exact h.writeDbuf (by simp) (storable_replicate_blankCode _)
  · exact h.startTransfer false
  · exact h.startTransfer true
  · exact h.clearErrors
  · exact h.raiseError _

/-- Each end of a busy phase keeps the invariants (42_line_fsm.md R163, R166). -/
theorem State.Inv.endPhase {s : State} (h : s.Inv) (hi : s.fsm ≠ .idle) : (endPhase s).Inv := by
  have hn := h.pos_lt
  have hb := h.bit_lt
  have ht := s.cfg.tShort_pos
  rcases endPhase_cases s hi h.used with ⟨hf, e⟩ | ⟨hf, hbit, e⟩ | ⟨hf, hbit, hpos, e⟩ | ⟨hf, hbit, hpos, e⟩ |
    ⟨hf, e⟩ | ⟨hf, e⟩ <;> rw [e]
  · exact { h with tick_lt := ht, idle_rest := by simp, latch_rest := by simp, used := rfl }
  · have hnext : s.bit - 1 < s.cfg.b := by omega
    exact { h with bit_lt := hnext, tick_lt := ht, idle_rest := by simp, latch_rest := by simp, used := rfl }
  · have hnext : s.pos - 1 < s.cfg.n := by omega
    have htop : s.cfg.b - 1 < s.cfg.b := by omega
    exact { h with
      pos_lt := hnext, bit_lt := htop, tick_lt := ht, idle_rest := by simp, latch_rest := by simp, used := rfl }
  · exact { h with tick_lt := ht, idle_rest := by simp, latch_rest := fun _ => ⟨hpos, hbit⟩, used := rfl }
  · exact { h with tick_lt := ht, idle_rest := by simp, latch_rest := fun _ => h.latch_rest (.inl hf), used := rfl }
  · obtain ⟨hpos, hbit⟩ := h.latch_rest (.inr hf)
    exact { h with tick_lt := ht, idle_rest := fun _ => ⟨hpos, hbit, rfl⟩, latch_rest := by simp, used := rfl }

theorem State.Inv.advance {s : State} (h : s.Inv) (hi : s.fsm ≠ .idle) : (advance s).Inv := by
  by_cases ht : s.tick < s.cfg.tShort - 1
  · rw [advance_counts s ht]
    have hnext : s.tick + 1 < s.cfg.tShort := by omega
    exact { h with tick_lt := hnext, idle_rest := fun hf => absurd hf hi }
  · rw [advance_ends s ht]
    exact h.endPhase hi

theorem State.Inv.blockCycle {inp : Inputs} {s t : State} (h : s.Inv) (hb : blockCycle inp s = .next t) : t.Inv := by
  rcases blockCycle_next_cases hb with ⟨-, rfl⟩ | ⟨-, he⟩ | ⟨-, -, -, rfl⟩ | ⟨-, hi, -, rfl⟩
  · exact resetBlock_inv s
  · exact h.exec (wf_decodeFields ..) he
  · exact h
  · exact h.advance hi

/-- Settles O34: each branch of the block's clock edge keeps the invariants, and nothing beside the block is in them. -/
theorem stepKeepsInvariants : Obligations.StepKeepsInvariants := by
  intro s t h hs
  obtain ⟨u, hu, rfl⟩ := step_next_iff.mp hs
  exact (h.blockCycle hu).settle s

/-- Settles O33: the reset values satisfy the invariants, whatever the block held before. -/
theorem resetEstablishesInvariants : Obligations.ResetEstablishesInvariants := by
  intro s t hr hs
  cases (step_of_rst hr).symm.trans hs
  exact (resetBlock_inv s).settle s

theorem resetFor_inv (c : Config) : (State.resetFor c).Inv :=
  resetFor_eq_resetBlock c ▸ resetBlock_inv (State.resetFor c)

/-- The power-on draws have one bit for each stage (42_line_fsm.md R181). -/
theorem resetFor_receiversShaped (c : Config) : (State.resetFor c).ReceiversShaped where
  rx := ⟨by simp [State.resetFor, Receiver.powerOn], by simp [State.resetFor, Receiver.powerOn]⟩
  chip := ⟨by simp [State.resetFor, Chip.powerOn], by simp [State.resetFor, Chip.powerOn]⟩
  oldOut := by simp [State.resetFor, Chip.powerOn]

/-- Settles O32: `State.reset` is the block of the reference parameters. -/
theorem invariantsHoldAtReset : Obligations.InvariantsHoldAtReset :=
  ⟨resetFor_inv Config.reference, resetFor_inv, resetFor_receiversShaped⟩

/-- The width of a counter over 0 .. m-1 holds all its values (00_scope.md R5). -/
theorem lt_two_pow_counterWidth {x m : Nat} (h : x < m) : x < 2 ^ counterWidth m := by
  have hclog : x < 2 ^ clog2 m := by
    unfold clog2
    split
    · omega
    · exact Nat.lt_of_le_of_lt (Nat.le_sub_one_of_lt h) Nat.lt_log2_self
  exact Nat.lt_of_lt_of_le hclog (Nat.pow_le_pow_right (by decide) (Nat.le_max_right 1 (clog2 m)))

/-- Settles O36: the invariants bound each counter by the count its width is made for. -/
theorem counterWidthsSuffice : Obligations.CounterWidthsSuffice := fun _ h =>
  ⟨lt_two_pow_counterWidth h.pos_lt, lt_two_pow_counterWidth h.bit_lt, lt_two_pow_counterWidth h.tick_lt⟩

end Sys2Proof.Machine

/-! PROOFS on the commands at their accepting edge and on the step as a whole: what answers, what stops, and what a run
keeps (00_scope.md R5, 42_line_fsm.md R165). -/

namespace Sys2Proof.Machine

theorem exec_xfer (s : State) : exec .xfer s = .next (startTransfer false s) := rfl

theorem exec_blank (s : State) : exec .blank s = .next (startTransfer true s) := rfl

/-- Settles O12: XFER is the start of a transfer with SRC 0, which writes the fields R134 names. -/
theorem xferStartsTheSequencer : Obligations.XferStartsTheSequencer := exec_xfer

/-- Settles O13: BLANK is the start of a transfer with SRC 1, which does not write DBUF. -/
theorem blankStartsTheSequencer : Obligations.BlankStartsTheSequencer := exec_blank

/-- Settles O14: command by command, what its update of the state leaves alone. -/
theorem commandFrames : Obligations.CommandFrames := by
  intro i s t h
  rcases exec_next_cases h with ⟨rfl, rfl⟩ | ⟨lanes, rfl, -, rfl⟩ | ⟨lanes, rfl, -, rfl⟩ | ⟨rfl, rfl⟩ | ⟨rfl, rfl⟩ |
    ⟨rfl, rfl⟩ | ⟨rfl, rfl⟩ | ⟨rfl | rfl, rfl⟩ <;> simp [sequencingOf]

theorem exec_total (i : Instr) (s : State) : ∃ t, exec i s = .next t := by
  cases i with
  | nop => exact ⟨_, rfl⟩
  | load lanes => exact ⟨_, rfl⟩
  | clear => exact ⟨_, exec_clear s⟩
  | xfer => exact ⟨_, exec_xfer s⟩
  | blank => exact ⟨_, exec_blank s⟩
  | clrerr => exact ⟨_, exec_clrerr s⟩
  | rsvd6 => exact ⟨_, exec_rsvd6 s⟩
  | rsvd7 => exact ⟨_, exec_rsvd7 s⟩

/-- Settles O15: each arm of `exec` answers a next state. -/
theorem everyCommandCompletes : Obligations.EveryCommandCompletes := exec_total

/-- An accepted command that answers is the block's part of the step. -/
theorem step_of_accepts {s t : State} (ha : accepts (portInputs s) s = true)
    (he : exec (portInstr (portInputs s) s) s = .next t) : step s = .next (settle s t) :=
  step_of_block ((blockCycle_accept ha).trans he)

/-- Settles O16: such a command is accepted, and `settle` is what moves on beside the block. -/
theorem stepRunsTheAcceptedCommand : Obligations.StepRunsTheAcceptedCommand := by
  intro s t i hr hv hi hd he
  subst hd
  exact step_of_accepts ((accepts_iff _ s).mpr ⟨hr, hv, hi⟩) he

/-- The command a placed word puts on the port (30_encoding.md R80; logs 4, 5). -/
theorem portInstr_presentWord {w : Nat} {s : State} {i : Instr} (h : decode s.cfg.n w = .ok i) :
    portInstr (portInputs (presentWord w s)) (presentWord w s) = i := by
  obtain ⟨hw, hi⟩ := decode_eq_ok_iff.mp h
  rw [presentWord_inputs, portInstr, presentWord_cfg, commandInputs_cmdOp, commandInputs_cmdData,
    Nat.mod_eq_of_lt (shiftRight_lt_of_lt_cmdWidth hw), hi]

theorem accepts_presentWord (w : Nat) (s : State) :
    accepts (portInputs (presentWord w s)) (presentWord w s) = true := by
  rw [presentWord_inputs]
  exact (accepts_iff _ _).mpr ⟨rfl, rfl, presentWord_fsm w s⟩

theorem presentWord_of_idle {w : Nat} {s : State} (h : s.fsm = .idle) :
    { presentWord w s with host := s.host } = s := by
  rw [presentWord, if_pos h]

/-- Settles O17: the placed word is on the port of an idle block, where it is accepted. -/
theorem placedWordRunsNext : Obligations.PlacedWordRunsNext := by
  intro s nbits w i hd hw
  rw [State.withFetchWord, Nat.mod_eq_of_lt hw]
  obtain ⟨t, ht⟩ := exec_total i (presentWord w s)
  have hi : portInstr (portInputs (presentWord w s)) (presentWord w s) = i := portInstr_presentWord hd
  exact ⟨t, ht, step_of_accepts (accepts_presentWord w s) (hi.symm ▸ ht), presentWord_of_idle⟩

/-- The block's clock edge answers a next state, or FSM holds an unused code in a cycle without `rst`. -/
theorem blockCycle_total {inp : Inputs} {s : State} (h : inp.rst = true ∨ s.fsm.unused = false) :
    ∃ t, blockCycle inp s = .next t := by
  cases hr : inp.rst with
  | true => exact ⟨_, blockCycle_rst s hr⟩
  | false =>
    have hu : s.fsm.unused = false := by simpa [hr] using h
    by_cases hi : s.fsm = .idle
    · cases hv : inp.cmdValid with
      | true => rw [blockCycle_accept ((accepts_iff inp s).mpr ⟨hr, hv, hi⟩)]; exact exec_total _ s
      | false => exact ⟨s, blockCycle_quiet hr hi hv⟩
    · exact ⟨_, blockCycle_busy hr hi hu⟩

theorem step_total {s : State} (h : (portInputs s).rst = true ∨ s.fsm.unused = false) : ∃ t, step s = .next t := by
  obtain ⟨u, hu⟩ := blockCycle_total h
  exact ⟨_, step_of_block hu⟩

theorem step_of_unused {s : State} (hr : (portInputs s).rst = false) (hu : s.fsm.unused = true) :
    step s = .fault .unusedPhase := by
  simp [step, cycle, blockCycle_unused hr hu]

/-- Settles O30: the invariants leave FSM no unused code. -/
theorem stepIsTotal : Obligations.StepIsTotal := fun _ h => step_total (.inr h.used)

/-- Settles O31: the unused codes without `rst` fault, and every other cycle answers a next state. -/
theorem stopsExactlyOnUnusedPhases : Obligations.StopsExactlyOnUnusedPhases := by
  intro s
  rw [← unused_iff]
  by_cases h : (portInputs s).rst = false ∧ s.fsm.unused = true
  · rw [step_of_unused h.1 h.2]
    exact ⟨iff_of_true ⟨_, rfl⟩ h, by simp⟩
  · obtain ⟨t, ht⟩ := step_total (by simpa using (not_and_or.mp h))
    rw [ht]
    exact ⟨iff_of_false (by simp) h, by simp⟩

/-- SRC after a command, by command (10_state.md R34). -/
theorem exec_src_of_not_transfer {i : Instr} {s t : State} (h : exec i s = .next t)
    (hi : ¬ (i = .xfer ∨ i = .blank)) : t.src = s.src := by
  obtain ⟨-, hother, -⟩ := commandFrames i s t h
  exact (hother (fun e => hi (.inl e)) fun e => hi (.inr e)).2

theorem blockCycle_src_of_not_transfer {inp : Inputs} {s t : State} (hr : inp.rst = false)
    (hw : ¬ (accepts inp s = true ∧ (portInstr inp s = .xfer ∨ portInstr inp s = .blank)))
    (h : blockCycle inp s = .next t) : t.src = s.src := by
  rcases blockCycle_next_cases h with ⟨hr', -⟩ | ⟨ha, he⟩ | ⟨-, -, -, rfl⟩ | ⟨-, -, -, rfl⟩
  · simp [hr] at hr'
  · exact exec_src_of_not_transfer he fun hi => hw ⟨ha, hi⟩
  · rfl
  · exact advance_src s

/-- Settles O26: the reset and the two starts of a transfer write SRC, every other cycle keeps it. -/
theorem srcWrittenOnlyByTransfers : Obligations.SrcWrittenOnlyByTransfers := by
  intro s t h
  obtain ⟨u, hu, rfl⟩ := step_next_iff.mp h
  rw [settle_src]
  refine ⟨fun hr => ?reset, fun ha hi => ?xfer, fun ha hi => ?blank,
    fun hr hw => blockCycle_src_of_not_transfer hr hw hu⟩
  case reset => cases (blockCycle_rst s hr).symm.trans hu; rfl
  case xfer => cases (exec_xfer s).symm.trans (hi ▸ exec_of_accepts ha hu); rfl
  case blank => cases (exec_blank s).symm.trans (hi ▸ exec_of_accepts ha hu); rfl

/-! ## What does not depend on the flags or on the receivers -/

/-- The state with other values of the fields that no busy advance reads: the flags and the receivers. -/
def State.withUnread (s : State) (e o : Bool) (r : Receiver) (c : Chip) : State :=
  { s with errDigit := e, errOp := o, rx := r, chip := c }

theorem endPhase_withUnread (s : State) (e o : Bool) (r : Receiver) (c : Chip) :
    endPhase (s.withUnread e o r c) = (endPhase s).withUnread e o r c := by
  cases hf : s.fsm with
  | high =>
    simp only [endPhase, State.withUnread, hf]
    (repeat' split) <;> rfl
  | _ => simp only [endPhase, State.withUnread, hf]

theorem advance_withUnread (s : State) (e o : Bool) (r : Receiver) (c : Chip) :
    advance (s.withUnread e o r c) = (advance s).withUnread e o r c := by
  by_cases h : s.tick < s.cfg.tShort - 1
  · rw [advance_counts s h, advance_counts (s.withUnread e o r c) h]; rfl
  · rw [advance_ends s h, advance_ends (s.withUnread e o r c) h, endPhase_withUnread]

/-- The state with other values of the two flags. -/
def State.withFlags (s : State) (e o : Bool) : State := { s with errDigit := e, errOp := o }

theorem advance_withFlags (s : State) (e o : Bool) : advance (s.withFlags e o) = (advance s).withFlags e o :=
  (advance_withUnread s e o s.rx s.chip).trans (by simp [State.withUnread, State.withFlags])

/-- No command reads a flag (10_state.md R38). -/
theorem exec_withFlags {i : Instr} {s t : State} (h : exec i s = .next t) (e o : Bool) :
    ∃ e' o', exec i (s.withFlags e o) = .next (t.withFlags e' o') := by
  rcases exec_next_cases h with ⟨rfl, rfl⟩ | ⟨lanes, rfl, hv, rfl⟩ | ⟨lanes, rfl, hv, rfl⟩ | ⟨rfl, rfl⟩ | ⟨rfl, rfl⟩ |
    ⟨rfl, rfl⟩ | ⟨rfl, rfl⟩ | ⟨rfl | rfl, rfl⟩
  case inr.inl => exact ⟨e, o, exec_load_of_allValid _ hv⟩
  case inr.inr.inl => exact ⟨true, o, exec_load_of_not_allValid _ hv⟩
  case inr.inr.inr.inr.inr.inr.inl => exact ⟨false, false, rfl⟩
  case inr.inr.inr.inr.inr.inr.inr.inl => exact ⟨e, true, rfl⟩
  case inr.inr.inr.inr.inr.inr.inr.inr => exact ⟨e, true, rfl⟩
  all_goals exact ⟨e, o, rfl⟩

/-- Settles O27: in each branch of the block's clock edge the flags are carried along or written, never read. -/
theorem flagsDecideNothing : Obligations.FlagsDecideNothing := by
  intro inp s t e o h
  change ∃ e' o', blockCycle inp (s.withFlags e o) = .next (t.withFlags e' o')
  rcases blockCycle_next_cases h with ⟨hr, rfl⟩ | ⟨ha, he⟩ | ⟨hr, hi, hv, rfl⟩ | ⟨hr, hi, hu, rfl⟩
  · exact ⟨false, false, blockCycle_rst (s.withFlags e o) hr⟩
  · have ha' : accepts inp (s.withFlags e o) = true := ha
    rw [blockCycle_accept ha']
    exact exec_withFlags he e o
  · exact ⟨e, o, blockCycle_quiet hr hi hv⟩
  · exact ⟨e, o, by rw [blockCycle_busy (s := s.withFlags e o) hr hi hu, advance_withFlags]⟩

/-- The state with other receivers. -/
def State.withReceivers (s : State) (r : Receiver) (c : Chip) : State := { s with rx := r, chip := c }

theorem advance_withReceivers (s : State) (r : Receiver) (c : Chip) :
    advance (s.withReceivers r c) = (advance s).withReceivers r c :=
  (advance_withUnread s s.errDigit s.errOp r c).trans (by simp [State.withUnread, State.withReceivers])

theorem exec_withReceivers {i : Instr} {s t : State} (h : exec i s = .next t) (r : Receiver) (c : Chip) :
    exec i (s.withReceivers r c) = .next (t.withReceivers r c) := by
  rcases exec_next_cases h with ⟨rfl, rfl⟩ | ⟨lanes, rfl, hv, rfl⟩ | ⟨lanes, rfl, hv, rfl⟩ | ⟨rfl, rfl⟩ | ⟨rfl, rfl⟩ |
    ⟨rfl, rfl⟩ | ⟨rfl, rfl⟩ | ⟨rfl | rfl, rfl⟩
  case inr.inl => exact exec_load_of_allValid _ hv
  case inr.inr.inl => exact exec_load_of_not_allValid _ hv
  all_goals rfl

theorem blockCycle_withReceivers {inp : Inputs} {s t : State} (h : blockCycle inp s = .next t) (r : Receiver)
    (c : Chip) : blockCycle inp (s.withReceivers r c) = .next (t.withReceivers r c) := by
  rcases blockCycle_next_cases h with ⟨hr, rfl⟩ | ⟨ha, he⟩ | ⟨hr, hi, hv, rfl⟩ | ⟨hr, hi, hu, rfl⟩
  · exact blockCycle_rst (s.withReceivers r c) hr
  · have ha' : accepts inp (s.withReceivers r c) = true := ha
    rw [blockCycle_accept ha']
    exact exec_withReceivers he r c
  · exact blockCycle_quiet hr hi hv
  · rw [blockCycle_busy (s := s.withReceivers r c) hr hi hu, advance_withReceivers]

theorem step_withReceivers {s t : State} (h : step s = .next t) (r : Receiver) (c : Chip) :
    ∃ r' c', step (s.withReceivers r c) = .next (t.withReceivers r' c') := by
  obtain ⟨u, hu, rfl⟩ := step_next_iff.mp h
  have hb : blockCycle (portInputs (s.withReceivers r c)) (s.withReceivers r c) = .next (u.withReceivers r c) :=
    blockCycle_withReceivers hu r c
  exact ⟨receiverStep s.cfg.nb (linesOf s) r, chipStep s.cfg (portInputs s).rst s.fsm (linesOf s) c,
    (step_of_block hb).trans rfl⟩

/-- Settles O28: by induction on the number of steps, each of which gives nothing back from the receivers. -/
theorem receiversFeedNothingBack : Obligations.ReceiversFeedNothingBack := by
  intro k
  induction k with
  | zero => rintro s t r c h; cases h; exact ⟨r, c, rfl⟩
  | succ k ih =>
    intro s t r c h
    obtain ⟨u, hu, h⟩ := runFor_succ_next h
    obtain ⟨r₁, c₁, hu'⟩ := step_withReceivers hu r c
    obtain ⟨r', c', ht⟩ := ih u t r₁ c₁ h
    exact ⟨r', c', (runFor_succ hu').trans ht⟩

theorem runFor_cfg {k : Nat} {s t : State} (h : runFor k s = .next t) : t.cfg = s.cfg :=
  runFor_keeps (P := fun u => u.cfg = s.cfg) (fun _ _ hu hs => (step_cfg hs).trans hu) rfl h

/-- Settles O29: no step writes the parameters. -/
theorem parametersNeverChange : Obligations.ParametersNeverChange := fun _ _ _ h => runFor_cfg h

end Sys2Proof.Machine

/-! PROOFS on the output ports, the status vector and the encoder (10_state.md R40, 60_exceptions.md R231 to R237,
41_transfer_commands.md R130). -/

namespace Sys2Proof.Machine

theorem busy_iff (s : State) : busy s = true ↔ s.fsm ≠ .idle := by
  rw [busy, Bool.not_eq_true', cmdReady_false_iff]

theorem packLanes_replicate_blankCode (n : Nat) : packLanes (List.replicate n blankCode) = 2 ^ (4 * n) - 1 := by
  rw [two_pow_four_mul, ← packLanes_blank n, Nat.add_sub_cancel]

/-- The outputs that follow from the reset values (10_state.md R44). -/
theorem outputsOf_resetFor (c : Config) :
    outputsOf (State.resetFor c) =
      { cmdReady := true, busy := false, errDigit := false, errOp := false, dbufQ := 2 ^ (4 * c.n) - 1,
        lines := ⟨false, false, false⟩ } := by
  have hq : dbufQ (State.resetFor c) = 2 ^ (4 * c.n) - 1 := packLanes_replicate_blankCode c.n
  rw [outputsOf, hq]
  rfl

/-- Settles O22: each port is its formula, and `State.reset` is one of the blocks right after reset. -/
theorem resetStateAndOutputs : Obligations.ResetStateAndOutputs := by
  refine ⟨fun s => ⟨cmdReady_iff s, busy_iff s, rfl, rfl, rfl, rfl⟩, fun c s hs => ?_⟩
  obtain ⟨c', rfl⟩ : ∃ c', s = State.resetFor c' := by
    rcases List.mem_pair.mp hs with rfl | rfl
    · exact ⟨c, rfl⟩
    · exact ⟨Config.reference, rfl⟩
  exact ⟨rfl, rfl, rfl, rfl, rfl, outputsOf_resetFor c'⟩

theorem statusVector_above (s : State) {b : Nat} (h : 2 ≤ b) : (statusVector s).getLsbD b = false :=
  BitVec.getLsbD_of_ge _ _ h

theorem raiseError_sets_statusBit (c : Cause) (s : State) :
    (statusVector (raiseError c s)).getLsbD c.statusBit = true := by
  cases c with
  | invalidDigitValue => exact statusVector_digit _
  | illegalCommand => exact statusVector_op _

/-- An error writes the flag of its cause and not the other (60_exceptions.md R236). -/
theorem raiseError_keeps_other_statusBits (c : Cause) (s : State) {b : Nat} (hb : b ≠ c.statusBit) :
    (statusVector (raiseError c s)).getLsbD b = (statusVector s).getLsbD b := by
  match b, c with
  | 0, .invalidDigitValue => exact absurd rfl hb
  | 1, .illegalCommand => exact absurd rfl hb
  | 1, .invalidDigitValue => rw [statusVector_op, statusVector_op, raiseError_digit_errOp]
  | 0, .illegalCommand => rw [statusVector_digit, statusVector_digit, raiseError_op_errDigit]
  | b + 2, _ => rw [statusVector_above _ (Nat.le_add_left 2 b), statusVector_above _ (Nat.le_add_left 2 b)]

theorem raiseError_idempotent (c : Cause) (s : State) : raiseError c (raiseError c s) = raiseError c s := by
  cases c <;> rfl

/-- The way back clears the whole vector (60_exceptions.md R237). -/
theorem statusVector_clearErrors (s : State) : statusVector (clearErrors s) = 0#2 := by
  rw [statusVector, clearErrors_errOp, clearErrors_errDigit]
  decide

/-- Settles O23: the two bits of the status vector are the two flags; an error sets one, CLRERR clears both. -/
theorem errorReporting : Obligations.ErrorReporting :=
  ⟨⟨rfl, rfl⟩, ⟨rfl, rfl⟩, fun s => ⟨statusVector_digit s, statusVector_op s⟩,
    fun c s => ⟨raiseError_sets_statusBit c s, fun _ hb => raiseError_keeps_other_statusBits c s hb,
      raiseError_idempotent c s⟩, statusVector_clearErrors⟩

theorem encIndex_digit {d : Nat} (h : d < 10) : encIndex (BitVec.ofNat 4 d) = some ⟨d, by omega⟩ := by
  have hd : (BitVec.ofNat 4 d).toNat = d := by rw [BitVec.toNat_ofNat]; omega
  simp only [encIndex, hd]
  rw [dif_pos (by omega)]

theorem encIndex_blank : encIndex 15#4 = some 10 := rfl

theorem patternBit_of_encIndex {cfg : Config} {c : Code} {i : Fin 11} {b : Nat} (hi : encIndex c = some i)
    (hb : b < cfg.b) : patternBit cfg c b = (cfg.enc[i]).getLsbD b := by
  simp only [patternBit, hi, if_pos hb]

/-- The entries of the two reference tables (00_scope.md R6), each table by its ten digits. -/
theorem reference_tables_digit :
    ∀ (d : Nat) (_ : d < 10), Config.bcd4Table[d] = BitVec.ofNat 4 d ∧ Config.onehot10Table[d] = 1#10 <<< d := by
  decide

/-- Settles O44: a pattern bit is the bit of the entry that `encIndex` names. -/
theorem patternsAreTheTable : Obligations.PatternsAreTheTable :=
  ⟨fun _ _ _ h hb => patternBit_of_encIndex (encIndex_digit h) hb,
    fun _ _ hb => patternBit_of_encIndex encIndex_blank hb, reference_tables_digit, rfl, rfl⟩

end Sys2Proof.Machine

/-! PROOFS on the lines from one cycle to the next, the reference receiver and the real chip through a step
(42_line_fsm.md R171, R180; 70_reset_and_hazards.md R262, R267). -/

namespace Sys2Proof.Machine

/-- Settles O47: SER_CLK needs FSM to be HIGH, SER_LATCH needs it to be LHIGH. -/
theorem clockAndLatchNeverTogether : Obligations.ClockAndLatchNeverTogether := by
  rintro s ⟨hc, hl⟩
  rw [serClk_iff] at hc
  rw [serLatch_iff, hc] at hl
  exact absurd hl (by decide)

/-- No command leads to HIGH: it starts a transfer in SETUP or leaves FSM. -/
theorem exec_fsm_cases {i : Instr} {s t : State} (h : exec i s = .next t) : t.fsm = s.fsm ∨ t.fsm = .setup := by
  rcases exec_next_cases h with ⟨-, rfl⟩ | ⟨_, -, -, rfl⟩ | ⟨_, -, -, rfl⟩ | ⟨-, rfl⟩ | ⟨-, rfl⟩ | ⟨-, rfl⟩ |
    ⟨-, rfl⟩ | ⟨-, rfl⟩ <;> simp

theorem endPhase_enters_high {s : State} (hi : s.fsm ≠ .idle) (hu : s.fsm.unused = false)
    (ht : (endPhase s).fsm = .high) : s.fsm = .setup := by
  rcases endPhase_cases s hi hu with ⟨hf, -⟩ | ⟨-, -, e⟩ | ⟨-, -, -, e⟩ | ⟨-, -, -, e⟩ | ⟨-, e⟩ | ⟨-, e⟩
  case inl => exact hf
  all_goals rw [e] at ht; cases ht

/-- HIGH is entered from SETUP alone, and only TICK and FSM are written then (42_line_fsm.md R163). -/
theorem blockCycle_enters_high {inp : Inputs} {s t : State} (h : blockCycle inp s = .next t) (hs : s.fsm ≠ .high)
    (ht : t.fsm = .high) : s.fsm = .setup ∧ t = { s with tick := 0, fsm := .high } := by
  rcases blockCycle_next_cases h with ⟨-, rfl⟩ | ⟨ha, he⟩ | ⟨-, -, -, rfl⟩ | ⟨-, hi, hu, rfl⟩
  · cases ht
  · obtain ⟨-, -, hidle⟩ := (accepts_iff inp s).mp ha
    rcases exec_fsm_cases he with e | e
    · exact absurd (e.symm.trans ht) hs
    · rw [e] at ht; cases ht
  · exact absurd ht hs
  · by_cases hc : s.tick < s.cfg.tShort - 1
    · rw [advance_counts s hc] at ht
      exact absurd ht hs
    · rw [advance_ends s hc] at ht ⊢
      have hset := endPhase_enters_high hi hu ht
      exact ⟨hset, endPhase_setup s hset⟩

/-- Settles O48: SER_CLK rises from SETUP to HIGH, which show the same bit. -/
theorem dataStableAtClockRise : Obligations.DataStableAtClockRise := by
  intro s t h hs ht
  obtain ⟨u, hu, rfl⟩ := step_next_iff.mp h
  have hs : s.fsm ≠ .high := by simpa [serClk] using hs
  obtain ⟨hset, rfl⟩ := blockCycle_enters_high hu hs ((serClk_iff _).mp ht)
  rw [serData_shifting (.inr rfl), serData_shifting (.inl hset)]
  rfl

theorem step_rx {s t : State} (h : step s = .next t) : t.rx = receiverStep s.cfg.nb (linesOf s) s.rx := by
  obtain ⟨u, -, rfl⟩ := step_next_iff.mp h
  exact settle_rx s u

theorem step_chip {s t : State} (h : step s = .next t) :
    t.chip = chipStep s.cfg (portInputs s).rst s.fsm (linesOf s) s.chip := by
  obtain ⟨u, -, rfl⟩ := step_next_iff.mp h
  exact settle_chip s u

/-- Settles O49: a step of the receiver copies SR to OUT where the latch rises, and holds OUT elsewhere. -/
theorem displayChangesOnlyAtLatchRise : Obligations.DisplayChangesOnlyAtLatchRise := by
  intro s t h
  rw [step_rx h]
  exact ⟨receiverStep_out_hold s.cfg.nb (linesOf s) s.rx,
    fun ⟨hl, hp⟩ => receiverStep_out_rise s.cfg.nb (linesOf s) s.rx hl hp⟩

/-- Where SER_LATCH is low the display is the OUT held before (42_line_fsm.md R180). -/
theorem displayed_of_not_latch {s : State} (h : s.fsm ≠ .lhigh) : displayed s = s.rx.out :=
  receiverStep_out_hold _ _ _ fun ⟨hl, _⟩ => h ((serLatch_iff s).mp hl)

/-- Settles O50: the reset leaves FSM IDLE, whose low lines hold what the receiver took in the reset cycle. -/
theorem resetCutsATransfer : Obligations.ResetCutsATransfer := by
  intro s t hr h
  cases (step_of_rst hr).symm.trans h
  have hidle : (settle s (resetBlock s)).fsm = .idle := rfl
  refine ⟨linesOf_idle hidle, ?_, displayed_of_not_latch⟩
  rw [displayed_of_not_latch (by rw [hidle]; decide), settle_rx]
  rfl

/-! ## The real chip -/

section chip
variable {cfg : Config} {rst : Bool} {fsm : Phase} (l : Lines) (c : Chip)

/-- On a platform that does not meet R266, SR and OUT are free values of the chain's length (U16, U17). -/
theorem chipStep_regs_of_unfaithful (h : cfg.chipFaithful = false) :
    (chipStep cfg rst fsm l c).regs =
      { receiverStep cfg.chainLength l c.regs with
        sr := freeBits (Config.chipSr c.draws) cfg.chainLength
        out := freeBits (Config.chipOut c.draws) cfg.chainLength } := by
  simp [chipStep, h]

/-- A reset that cuts a transfer: SR is free, OUT is the old or the new pattern (70_reset_and_hazards.md R267). -/
theorem chipStep_regs_of_cut (h : cfg.chipFaithful = true) (hr : rst = true) (hf : fsm ≠ .idle) :
    (chipStep cfg rst fsm l c).regs =
      { receiverStep cfg.chainLength l c.regs with
        sr := freeBits (Config.chipSr c.draws) cfg.chainLength
        out :=
          if fsm = .lhigh && !Config.chipTakesLatch c.draws then (chipStep cfg rst fsm l c).oldOut
          else (receiverStep cfg.chainLength l c.regs).out } := by
  rw [chipStep_oldOut]
  simp [chipStep, h, hr, hf]

/-- In every other cycle the chip follows the reference receiver (70_reset_and_hazards.md R266; log 11). -/
theorem chipStep_regs_of_follows (h : cfg.chipFaithful = true) (hr : rst = true → fsm = .idle) :
    (chipStep cfg rst fsm l c).regs = receiverStep cfg.chainLength l c.regs := by
  have hn : ¬ (rst = true ∧ ¬ fsm = .idle) := fun ⟨hrst, hf⟩ => hf (hr hrst)
  simp [chipStep, h, hn]

theorem chipStep_oldOut_length (ho : c.regs.out.length = cfg.chainLength) (hold : c.oldOut.length = cfg.chainLength) :
    (chipStep cfg rst fsm l c).oldOut.length = cfg.chainLength := by
  rw [chipStep_oldOut]
  split
  · exact ho
  · exact hold

theorem chipStep_shaped (hs : c.regs.Shaped cfg.chainLength) (hold : c.oldOut.length = cfg.chainLength) :
    (chipStep cfg rst fsm l c).regs.Shaped cfg.chainLength := by
  have hstep := receiverStep_shaped l hs
  cases h : cfg.chipFaithful with
  | false => rw [chipStep_regs_of_unfaithful l c h]; exact ⟨freeBits_length _ _, freeBits_length _ _⟩
  | true =>
    by_cases hc : rst = true ∧ fsm ≠ .idle
    · rw [chipStep_regs_of_cut l c h hc.1 hc.2]
      refine ⟨freeBits_length _ _, ?_⟩
      dsimp only
      split
      · exact chipStep_oldOut_length l c hs.out hold
      · exact hstep.out
    · rw [chipStep_regs_of_follows l c h fun hr => by_contra fun hf => hc ⟨hr, hf⟩]
      exact hstep

end chip

/-- Settles O35: both receivers take a step that keeps the length, free values having the chain's length too. -/
theorem stepKeepsReceiverLengths : Obligations.StepKeepsReceiverLengths := by
  intro s t h hs
  constructor
  case rx => rw [step_rx hs, step_cfg hs]; exact receiverStep_shaped _ h.rx
  case chip => rw [step_chip hs, step_cfg hs]; exact chipStep_shaped _ _ h.chip h.oldOut
  case oldOut => rw [step_chip hs, step_cfg hs]; exact chipStep_oldOut_length _ _ h.chip.out h.oldOut

/-- Outside LHIGH a faithful chip's OUT is held, whether a reset cuts the transfer or not. -/
theorem chipStep_out_of_not_latch {s : State} {rst : Bool} (h : s.cfg.chipFaithful = true) (hf : s.fsm ≠ .lhigh) :
    (chipStep s.cfg rst s.fsm (linesOf s) s.chip).regs.out = s.chip.regs.out := by
  have hhold : (receiverStep s.cfg.chainLength (linesOf s) s.chip.regs).out = s.chip.regs.out :=
    receiverStep_out_hold _ _ _ fun ⟨hl, _⟩ => hf ((serLatch_iff s).mp hl)
  by_cases hc : rst = true ∧ s.fsm ≠ .idle
  · rw [chipStep_regs_of_cut _ _ h hc.1 hc.2]
    simpa [hf] using hhold
  · rw [chipStep_regs_of_follows _ _ h fun hr => by_contra fun hi => hc ⟨hr, hi⟩]
    exact hhold

/-- Within LHIGH a reset leaves a faithful chip's OUT the old pattern or what the latch copies (R267). -/
theorem chipStep_out_of_cut_latch {s : State} (h : s.cfg.chipFaithful = true) (hf : s.fsm = .lhigh) :
    (chipStep s.cfg true s.fsm (linesOf s) s.chip).regs.out =
        (if s.chip.regs.prevLatch then s.chip.oldOut else s.chip.regs.out) ∨
      (chipStep s.cfg true s.fsm (linesOf s) s.chip).regs.out =
        (receiverStep s.cfg.chainLength (linesOf s) s.chip.regs).out := by
  have hold : (chipStep s.cfg true s.fsm (linesOf s) s.chip).oldOut =
      if s.chip.regs.prevLatch then s.chip.oldOut else s.chip.regs.out := by
    have hl : (linesOf s).latch = true := (serLatch_iff s).mpr hf
    rw [chipStep_oldOut, hl]
    cases s.chip.regs.prevLatch <;> rfl
  rw [chipStep_regs_of_cut _ _ h rfl (by rw [hf]; decide), hold]
  dsimp only
  split
  · exact .inl rfl
  · exact .inr rfl

/-- Settles O51: what is stored at every latch rise, and the chip's OUT in the two cases of a cut. -/
theorem realChipAfterResetCut : Obligations.RealChipAfterResetCut := by
  intro s t h
  rw [step_chip h]
  refine ⟨fun hl hp => ?rise, fun hn => ?hold, chipStep_prevLatch .., fun hc hr =>
    ⟨fun hf => chipStep_out_of_not_latch hc hf, fun hf => hr ▸ chipStep_out_of_cut_latch hc hf⟩⟩
  case rise => rw [chipStep_oldOut, if_pos (by simp [linesOf, hl, hp])]
  case hold => rw [chipStep_oldOut, if_neg (by simpa [linesOf] using hn)]

/-- Settles O52: both receivers hold the same registers and take the same step, their chains being of one length. -/
theorem realChipFollowsReference : Obligations.RealChipFollowsReference := by
  rintro s t ⟨hc, heq⟩ h hr
  refine ⟨step_cfg h ▸ hc, ?_⟩
  rw [step_chip h, step_rx h, chipStep_regs_of_follows _ _ hc hr, chainLength_of_faithful hc, heq]

end Sys2Proof.Machine

/-! PROOFS of the family 43_host_sequencer.md: the lines of a host program (R211), the assembler that makes them
(30_encoding.md R87, R88), and the reference refresh loop, phase by phase (R202 to R209). -/

namespace Sys2Proof.Machine

/-! ## Host programs -/

section program
variable {s : State} {lines : List Line}

theorem portInputs_program (h : s.host = .program lines) :
    portInputs s = (programDrive (cmdReady s) lines).1 := by rw [portInputs, driverStep_program h]

theorem hostNext_program (h : s.host = .program lines) :
    hostNext s = .program (programDrive (cmdReady s) lines).2 := by rw [hostNext, driverStep_program h]

/-- A line that takes no cycle leaves the cycle to the lines after it (43_host_sequencer.md R211; log 15). -/
theorem driverStep_of_programDrive_eq {rest : List Line} (h : s.host = .program lines)
    (he : programDrive (cmdReady s) lines = programDrive (cmdReady s) rest) :
    driverStep s = driverStep { s with host := .program rest } := by
  have hready : cmdReady { s with host := .program rest } = cmdReady s := rfl
  rw [driverStep_program h, driverStep_program (s := { s with host := .program rest }) rfl, hready, he]

end program

theorem accepts_commandInputs (op : OpCode) (data : Nat) (s : State) :
    accepts (commandInputs op data) s = cmdReady s := rfl

theorem programDrive_waitrdy_of_ready (rest : List Line) :
    programDrive true (.waitrdy :: rest) = programDrive true rest := rfl

theorem programDrive_waitrdy_of_busy (rest : List Line) :
    programDrive false (.waitrdy :: rest) = (quietInputs, .waitrdy :: rest) := rfl

/-- Settles O53: each line by its row of `programDrive`. -/
theorem programLinesDriveThePort : Obligations.ProgramLinesDriveThePort := by
  intro s rest
  refine ⟨fun op data h => ?cmd, fun k h => ?reset, fun h => driverStep_of_programDrive_eq h rfl, fun k h => ?idle,
    fun h => driverStep_of_programDrive_eq h rfl, fun h hb => ?held, fun h hr => ?ready, fun h => ?done⟩
  case cmd =>
    have hp : portInputs s = commandInputs op data := portInputs_program h
    exact ⟨hp, by rw [hp, accepts_commandInputs]; exact hostNext_program h⟩
  case reset => exact ⟨by rw [portInputs_program h]; rfl, by rw [portInputs_program h]; rfl, hostNext_program h⟩
  case idle => exact ⟨by rw [portInputs_program h]; rfl, by rw [portInputs_program h]; rfl, hostNext_program h⟩
  case held =>
    rw [portInputs_program h, hostNext_program h, hb, programDrive_waitrdy_of_busy, h]
    exact ⟨rfl, rfl, rfl⟩
  case ready => exact driverStep_of_programDrive_eq h (by rw [hr, programDrive_waitrdy_of_ready])
  case done =>
    rw [portInputs_program h, hostNext_program h, h]
    exact ⟨rfl, rfl, rfl⟩

/-! ## The assembler -/

theorem assembleLine_eq_ok_iff {n : Nat} {a : AsmLine} {lines : List Line} :
    assembleLine n a = .ok lines ↔ a.check n = .ok () ∧ lines = linesFor a := by
  unfold assembleLine
  cases h : a.check n with
  | error e => simp
  | ok u => simp [eq_comm]

theorem checkLanes_eq_ok_iff {n : Nat} {ops : List Nat} :
    checkLanes n ops = .ok () ↔ ops.length = n ∧ ∀ v ∈ ops, v ≤ 15 := by
  have hany : ops.any (fun v => decide (15 < v)) = true ↔ ¬ ∀ v ∈ ops, v ≤ 15 := by simp
  by_cases hl : ops.length = n
  · by_cases hv : ∀ v ∈ ops, v ≤ 15
    · rw [checkLanes, if_neg (not_not_intro hl), if_neg (mt hany.mp (not_not_intro hv))]
      exact iff_of_true rfl ⟨hl, hv⟩
    · rw [checkLanes, if_neg (not_not_intro hl), if_pos (hany.mpr hv)]
      exact iff_of_false nofun fun h => hv h.2
  · rw [checkLanes, if_pos hl]
    exact iff_of_false nofun fun h => hl h.1

theorem check_raw_eq_ok_iff {n op data : Nat} :
    (AsmLine.raw op data).check n = .ok () ↔ op ≤ 7 ∧ data < 2 ^ (4 * n) := by
  rw [AsmLine.check]
  split
  · exact iff_of_false nofun (by omega)
  · split
    · exact iff_of_false nofun (by omega)
    · exact iff_of_true rfl (by omega)

theorem check_reset_eq_ok_iff {n k : Nat} : (AsmLine.reset k).check n = .ok () ↔ 1 ≤ k := by
  rw [AsmLine.check]
  split
  · exact iff_of_false nofun (by omega)
  · exact iff_of_true rfl (by omega)

theorem assemble_cons_eq_ok_iff {n : Nat} {a : AsmLine} {rest : List AsmLine} {lines : List Line} :
    assemble n (a :: rest) = .ok lines ↔
      ∃ first more, assembleLine n a = .ok first ∧ assemble n rest = .ok more ∧ lines = first ++ more := by
  rw [assemble]
  cases assembleLine n a with
  | error e => simp
  | ok first =>
    cases assemble n rest with
    | error e => simp
    | ok more => simp [eq_comm]

/-- Settles O55: a line is taken when its check passes, and is then the lines it stands for. -/
theorem assemblerLines : Obligations.AssemblerLines := by
  refine ⟨fun n ops lines => ?load, fun n ops lines => ?showDigits, fun n op data lines => ?raw,
    fun n k lines => ?reset, fun n => ⟨rfl, rfl, rfl, rfl, rfl, fun _ => rfl, rfl, rfl⟩,
    fun n a rest lines => ⟨rfl, assemble_cons_eq_ok_iff⟩⟩
  case load =>
    rw [assembleLine_eq_ok_iff, ← and_assoc]
    exact and_congr_left' checkLanes_eq_ok_iff
  case showDigits =>
    rw [assembleLine_eq_ok_iff, ← and_assoc]
    exact and_congr_left' checkLanes_eq_ok_iff
  case raw =>
    rw [assembleLine_eq_ok_iff, ← and_assoc]
    exact and_congr_left' check_raw_eq_ok_iff
  case reset =>
    rw [assembleLine_eq_ok_iff]
    exact and_congr_left' check_reset_eq_ok_iff

/-! ## The refresh loop: what it drives at each point -/

section loop
variable {s : State} {h : Refresh}

/-- A loop as host: its inputs stand on the port, and it is the host of the next cycle. -/
theorem driven_by_refresh {inp : Inputs} {h' : Refresh} (hh : s.host = .refresh h)
    (hd : refreshDrive s.cfg (cmdReady s) s.errDigit h = (inp, h')) :
    portInputs s = inp ∧ hostNext s = .refresh h' := by
  rw [portInputs, hostNext, driverStep_refresh hh, hd]
  exact ⟨rfl, rfl⟩

/-- Two loops that drive alike are alike as hosts. -/
theorem driverStep_of_refreshDrive_eq {h' : Refresh} (hh : s.host = .refresh h)
    (he : refreshDrive s.cfg (cmdReady s) s.errDigit h = refreshDrive s.cfg (cmdReady s) s.errDigit h') :
    driverStep s = driverStep { s with host := .refresh h' } := by
  have hr : driverStep { s with host := .refresh h' } =
      ((refreshDrive s.cfg (cmdReady s) s.errDigit h').1,
        .refresh (refreshDrive s.cfg (cmdReady s) s.errDigit h').2) := rfl
  rw [hr, driverStep_refresh hh, he]

end loop

/-! The commands of the loop on the wires (30_encoding.md R82, R87): XFER, BLANK and CLRERR carry no data. -/

theorem transferNow_eq (ready : Bool) (h : Refresh) :
    transferNow ready h =
      (⟨false, true, 3, 0⟩, { h with phase := if ready then .transferWait else .transferring }) := rfl

theorem stopNow_eq (ready : Bool) (h : Refresh) :
    stopNow ready h = (⟨false, true, 4, 0⟩, { h with phase := if ready then .stopWait else .stopBlank }) := rfl

theorem clearNow_eq (ready : Bool) (h : Refresh) :
    clearNow ready h = (⟨false, true, 5, 0⟩, { h with phase := if ready then .drawing else .clearing }) := rfl

theorem loadNow_eq (ready : Bool) (data : Nat) (h : Refresh) :
    loadNow ready data h =
      (⟨false, true, 1, data⟩, { h with phase := if ready then .reading else .loading data }) := rfl

section drive
variable {cfg : Config} {ready err : Bool} {h : Refresh}

theorem refreshDrive_startupReset_zero (hp : h.phase = .startupReset 0) :
    refreshDrive cfg ready err h =
      (resetInputs, { h with phase := if cfg.startupBlank then .startupBlank else .idle }) := by
  simp only [refreshDrive, hp]

theorem refreshDrive_startupReset_succ {k : Nat} (hp : h.phase = .startupReset (k + 1)) :
    refreshDrive cfg ready err h = (resetInputs, { h with phase := .startupReset k }) := by
  simp only [refreshDrive, hp]

theorem refreshDrive_startupBlank (hp : h.phase = .startupBlank) :
    refreshDrive cfg ready err h =
      (⟨false, true, 4, 0⟩, { h with phase := if ready then .startupWait else .startupBlank }) := by
  simp only [refreshDrive, hp]
  rfl

theorem refreshDrive_startupWait_of_ready (hp : h.phase = .startupWait) :
    refreshDrive cfg true err h = refreshDrive cfg true err { h with phase := .idle } := by
  simp only [refreshDrive, hp, if_true]
  rfl

theorem refreshDrive_startupWait_of_busy (hp : h.phase = .startupWait) :
    refreshDrive cfg false err h = (quietInputs, h) := by
  simp [refreshDrive, hp]

theorem refreshDrive_clearing (hp : h.phase = .clearing) : refreshDrive cfg ready err h = clearNow ready h := by
  simp only [refreshDrive, hp]

theorem refreshDrive_drawing (hp : h.phase = .drawing) : refreshDrive cfg ready err h = drawNow cfg.n ready h := by
  simp only [refreshDrive, hp]

theorem refreshDrive_loading {data : Nat} (hp : h.phase = .loading data) :
    refreshDrive cfg ready err h = loadNow ready data h := by
  simp only [refreshDrive, hp]

theorem refreshDrive_reading (hp : h.phase = .reading) : refreshDrive cfg ready err h = readNow cfg ready err h := by
  simp only [refreshDrive, hp]

theorem refreshDrive_transferring (hp : h.phase = .transferring) :
    refreshDrive cfg ready err h = transferNow ready h := by
  simp only [refreshDrive, hp]

theorem refreshDrive_transferWait_of_busy (hp : h.phase = .transferWait) :
    refreshDrive cfg false err h = (quietInputs, h) := by
  simp [refreshDrive, hp]

theorem refreshDrive_waiting_succ {k : Nat} (hp : h.phase = .waiting (k + 1)) :
    refreshDrive cfg ready err h = (quietInputs, { h with phase := .waiting k }) := by
  simp only [refreshDrive, hp, waitNow]

theorem refreshDrive_stopBlank (hp : h.phase = .stopBlank) : refreshDrive cfg ready err h = stopNow ready h := by
  simp only [refreshDrive, hp]

theorem refreshDrive_stopWait (hp : h.phase = .stopWait) :
    refreshDrive cfg ready err h = (quietInputs, { h with phase := if ready then .stopped else .stopWait }) := by
  cases ready with
  | true => simp only [refreshDrive, hp, if_true]
  | false =>
    have hstay : ({ h with phase := .stopWait } : Refresh) = h := by rw [← hp]
    simp [refreshDrive, hp, hstay]

theorem refreshDrive_stopped (hp : h.phase = .stopped) : refreshDrive cfg ready err h = (quietInputs, h) := by
  simp only [refreshDrive, hp]

/-- A good LOAD, and any LOAD under SKIP, is followed by the transfer (43_host_sequencer.md R205). -/
theorem readNow_transfers (hg : err = false ∨ cfg.retryPolicy = .skip) :
    readNow cfg ready err h = transferNow ready h := by
  cases err with
  | false => rfl
  | true =>
    have hs : cfg.retryPolicy = .skip := by simpa using hg
    simp [readNow, hs]

theorem readNow_retry (hp : cfg.retryPolicy = .retry) : readNow cfg ready true h = clearNow ready h := by
  simp [readNow, hp]

theorem readNow_halt (hp : cfg.retryPolicy = .halt) : readNow cfg ready true h = stopNow ready h := by
  simp [readNow, hp]

end drive

/-! ## The refresh loop: Startup and Transferring -/

/-- Waiting starts alike from every point of the loop: what it drives reads no phase (43_host_sequencer.md R207). -/
theorem waitNow_setPhase (cfg : Config) (ready err : Bool) (left : Nat) (h : Refresh) (p : RefreshPhase) :
    waitNow cfg ready err left { h with phase := p } = waitNow cfg ready err left h := by
  cases left with
  | succ k => rfl
  | zero =>
    simp only [waitNow, checkStop, regenerateNow]
    (repeat' split) <;> rfl

theorem refreshDrive_transferWait_of_ready {cfg : Config} {err : Bool} {h : Refresh} (hp : h.phase = .transferWait) :
    refreshDrive cfg true err h = refreshDrive cfg true err { h with phase := .waiting cfg.tLong } := by
  have hl : refreshDrive cfg true err h = waitNow cfg true err cfg.tLong h := by
    simp only [refreshDrive, hp, if_true]
  rw [hl, ← waitNow_setPhase cfg true err cfg.tLong h (.waiting cfg.tLong)]
  rfl

/-- Settles O57: each point of Startup and Transferring by what the loop drives there. -/
theorem refreshLoopStartsAndTransfers : Obligations.RefreshLoopStartsAndTransfers := by
  intro s h hh
  refine ⟨fun k hp => ?reset, fun k hp => ?counts, fun hp => ?starts, fun hp => ?blank, fun hp hb => ?blankHeld,
    fun hp hr => ?blankDone, fun hp => ?transfer, fun hp hb => ?transferHeld, fun hp hr => ?transferDone⟩
  case reset =>
    have hd : portInputs s = resetInputs := by
      cases k with
      | zero => exact (driven_by_refresh hh (refreshDrive_startupReset_zero hp)).1
      | succ k => exact (driven_by_refresh hh (refreshDrive_startupReset_succ hp)).1
    rw [hd]
    exact ⟨rfl, rfl⟩
  case counts => exact (driven_by_refresh hh (refreshDrive_startupReset_succ hp)).2
  case starts => exact (driven_by_refresh hh (refreshDrive_startupReset_zero hp)).2
  case blank => exact driven_by_refresh hh (refreshDrive_startupBlank hp)
  case blankHeld =>
    obtain ⟨hi, hn⟩ := driven_by_refresh hh (hb.symm ▸ refreshDrive_startupWait_of_busy hp)
    exact ⟨by rw [hi]; rfl, by rw [hi]; rfl, hn.trans hh.symm⟩
  case blankDone => exact driverStep_of_refreshDrive_eq hh (hr.symm ▸ refreshDrive_startupWait_of_ready hp)
  case transfer => exact driven_by_refresh hh ((refreshDrive_transferring hp).trans (transferNow_eq _ _))
  case transferHeld =>
    obtain ⟨hi, hn⟩ := driven_by_refresh hh (hb.symm ▸ refreshDrive_transferWait_of_busy hp)
    exact ⟨by rw [hi]; rfl, by rw [hi]; rfl, hn.trans hh.symm⟩
  case transferDone => exact driverStep_of_refreshDrive_eq hh (hr.symm ▸ refreshDrive_transferWait_of_ready hp)

/-! ## The refresh loop: stopping -/

theorem refreshDrive_stops {s : State} {h : Refresh} (hc : AtStopCheck s h) (hs : h.stops.headD false = true) :
    refreshDrive s.cfg (cmdReady s) s.errDigit h = stopNow (cmdReady s) { h with stops := h.stops.tail } := by
  rw [refreshDrive_atStopCheck hc, checkStop_stop hs]

/-- Settles O56: the stop check presents BLANK, and no point of Stopping or Stopped presents anything else. -/
theorem stopIssuesBlankOnceAndNothingElse : Obligations.StopIssuesBlankOnceAndNothingElse := by
  refine ⟨fun s h hh hc hs => ?check, fun s h hh hp => ?after⟩
  case check =>
    obtain ⟨hi, hn⟩ := driven_by_refresh hh ((refreshDrive_stops hc hs).trans (stopNow_eq _ _))
    exact ⟨hi, _, hn, rfl⟩
  case after =>
    rcases hp with hp | hp | hp
    · obtain ⟨hi, hn⟩ := driven_by_refresh hh ((refreshDrive_stopBlank hp).trans (stopNow_eq _ _))
      simp [hi, hn, hp]
    · obtain ⟨hi, hn⟩ := driven_by_refresh hh (refreshDrive_stopWait hp)
      simp [hi, hn, hp]
    · obtain ⟨hi, hn⟩ := driven_by_refresh hh (refreshDrive_stopped hp)
      simp [hi, hn, hp]

/-! ## The refresh loop: Regenerating and Waiting -/

/-- Settles O58: the reading by `err_digit` and RETRY_POLICY, a Waiting cycle by its count. -/
theorem refreshLoopReadsTheFlag : Obligations.RefreshLoopReadsTheFlag := by
  intro s h hh
  refine ⟨fun hp => ⟨fun hg => ?transfers, fun he hr => ?retries, fun he hr => ?halts⟩, fun k hp => ?waits⟩
  case transfers =>
    exact driven_by_refresh hh (by rw [refreshDrive_reading hp, readNow_transfers hg, transferNow_eq])
  case retries => exact driven_by_refresh hh (by rw [refreshDrive_reading hp, he, readNow_retry hr, clearNow_eq])
  case halts => exact driven_by_refresh hh (by rw [refreshDrive_reading hp, he, readNow_halt hr, stopNow_eq])
  case waits =>
    obtain ⟨hi, hn⟩ := driven_by_refresh hh (refreshDrive_waiting_succ hp)
    exact ⟨by rw [hi]; rfl, by rw [hi]; rfl, hn⟩

/-- A stop check without the stop signal and with `err_digit = 1` clears the flag first (43_host_sequencer.md R205). -/
theorem refreshDrive_clears {s : State} {h : Refresh} (hc : AtStopCheck s h) (hs : h.stops.headD false = false)
    (he : s.errDigit = true) :
    refreshDrive s.cfg (cmdReady s) s.errDigit h = clearNow (cmdReady s) { h with stops := h.stops.tail } := by
  rw [refreshDrive_atStopCheck hc, checkStop_go hs, regenerateNow, if_pos he]

/-- With `err_digit = 0` it draws at once. -/
theorem refreshDrive_draws {s : State} {h : Refresh} (hc : AtStopCheck s h) (hs : h.stops.headD false = false)
    (he : s.errDigit = false) :
    refreshDrive s.cfg (cmdReady s) s.errDigit h = drawNow s.cfg.n (cmdReady s) { h with stops := h.stops.tail } := by
  rw [refreshDrive_atStopCheck hc, checkStop_go hs, regenerateNow, he]
  rfl

/-- Settles O59: each point of Regenerating by what the loop drives there. -/
theorem refreshLoopRegenerates : Obligations.RefreshLoopRegenerates := by
  intro s h hh
  refine ⟨fun hc hs he => ?clears, fun hc hs he => ?draws, fun hp => ?clearing, fun hp => ?drawing,
    fun data hp => ?loading⟩
  case clears => exact driven_by_refresh hh ((refreshDrive_clears hc hs he).trans (clearNow_eq _ _))
  case draws => exact driverStep_of_refreshDrive_eq hh (refreshDrive_draws hc hs he)
  case clearing => exact driven_by_refresh hh ((refreshDrive_clearing hp).trans (clearNow_eq _ _))
  case drawing => exact ⟨_, driven_by_refresh hh ((refreshDrive_drawing hp).trans (loadNow_eq _ _ _))⟩
  case loading => exact driven_by_refresh hh ((refreshDrive_loading hp).trans (loadNow_eq _ _ _))

/-! ## Draws -/

theorem laneOfDraw_of_le {v : Nat} (h : v ≤ 15) : (laneOfDraw v).toNat = v := by
  rw [laneOfDraw, if_pos h, BitVec.toNat_ofNat]
  omega

theorem laneOfDraw_of_gt {v : Nat} (h : 15 < v) : (laneOfDraw v).toNat = 15 := by
  rw [laneOfDraw, if_neg (by omega)]
  rfl

theorem drawnLanes_length (n : Nat) (h : Refresh) : (drawnLanes n h).length = n := by simp [drawnLanes]

theorem eq_laneOfDraw_of_drawnLanes {n p : Nat} {h : Refresh} {c : Code} (hp : (drawnLanes n h)[p]? = some c) :
    c = laneOfDraw (h.digits[p]?.getD (Config.nextDigit h.draws p)) := by
  obtain ⟨_, hc⟩ := List.getElem?_eq_some_iff.mp hp
  simpa [drawnLanes] using hc.symm

/-- Where the loop draws, the LOAD on the port carries the drawn lanes (43_host_sequencer.md R205). -/
theorem portInstr_of_drawNow {s : State} {h : Refresh} (hi : portInputs s = (drawNow s.cfg.n (cmdReady s) h).1) :
    portInstr (portInputs s) s = .load (drawnLanes s.cfg.n h) := by
  have hl : lanesOf s.cfg.n (packLanes (drawnLanes s.cfg.n h)) = drawnLanes s.cfg.n h := by
    simpa only [drawnLanes_length] using lanesOf_packLanes (drawnLanes s.cfg.n h)
  rw [hi]
  exact congrArg Instr.load hl

/-- Settles O60: the lanes on the port are the drawn ones, and a lane is its draw or 15. -/
theorem drawsAreNeverTruncated : Obligations.DrawsAreNeverTruncated := by
  intro s h hh hp
  have hi : portInputs s = (drawNow s.cfg.n (cmdReady s) h).1 := by
    rcases hp with hp | ⟨hc, hs, he⟩
    · exact (driven_by_refresh hh (refreshDrive_drawing hp)).1
    · exact (driven_by_refresh hh (refreshDrive_draws hc hs he)).1
  refine ⟨drawnLanes s.cfg.n h, portInstr_of_drawNow hi, drawnLanes_length _ h, fun p v c hv hl => ?_⟩
  rw [eq_laneOfDraw_of_drawnLanes hl, hv]
  exact ⟨laneOfDraw_of_le, laneOfDraw_of_gt⟩

end Sys2Proof.Machine

/-! PROOFS on the course of a transfer (42_line_fsm.md R167): the phase of each point of the timeline, the runs that
follow it without `rst`, and the time until `cmd_ready = 1` (30_encoding.md R85, 43_host_sequencer.md R211). -/

namespace Sys2Proof.Machine

/-! ## The phases of the timeline -/

theorem transferCycles_le_iff {c : Config} {m : Nat} : c.transferCycles ≤ m ↔ 2 * c.nb + 2 ≤ m / c.tShort :=
  (Nat.le_div_iff_mul_le c.tShort_pos).symm

/-- The four stretches of the timeline. -/
theorem phase_stretches (c : Config) (j : Nat) :
    j < 2 * c.nb ∨ j = 2 * c.nb ∨ j = 2 * c.nb + 1 ∨ 2 * c.nb + 2 ≤ j := by omega

theorem timeline_fsm_idle_iff {c : Config} {m : Nat} : (timeline c m).fsm = .idle ↔ c.transferCycles ≤ m := by
  rw [transferCycles_le_iff]
  rcases phase_stretches c (m / c.tShort) with h | h | h | h
  · rw [timeline_shifting h]
    exact iff_of_false (by dsimp only; split <;> decide) (by omega)
  · rw [timeline_lsetup h]
    exact iff_of_false nofun (by omega)
  · rw [timeline_lhigh h]
    exact iff_of_false nofun (by omega)
  · rw [timeline_idle h]
    exact iff_of_true rfl h

theorem timeline_fsm_used (c : Config) (m : Nat) : (timeline c m).fsm.unused = false := by
  rcases phase_stretches c (m / c.tShort) with h | h | h | h
  · rw [timeline_shifting h]
    dsimp only
    split <;> rfl
  · rw [timeline_lsetup h]; rfl
  · rw [timeline_lhigh h]; rfl
  · rw [timeline_idle h]; rfl

theorem fsm_of_sequencingOf {s : State} {q : Sequencing} (h : sequencingOf s = q) : s.fsm = q.fsm :=
  (sequencingOf_eq_iff.mp h).1

/-! ## Runs that follow the timeline -/

/-- What a transfer leaves alone (42_line_fsm.md R163): the parameters, DBUF, SRC and the flags. -/
structure SameData (s t : State) : Prop where
  cfg : t.cfg = s.cfg
  dbuf : t.dbuf = s.dbuf
  src : t.src = s.src
  errDigit : t.errDigit = s.errDigit
  errOp : t.errOp = s.errOp

theorem SameData.refl (s : State) : SameData s s := ⟨rfl, rfl, rfl, rfl, rfl⟩

theorem SameData.trans {s t u : State} (h : SameData s t) (h' : SameData t u) : SameData s u :=
  ⟨h'.cfg.trans h.cfg, h'.dbuf.trans h.dbuf, h'.src.trans h.src, h'.errDigit.trans h.errDigit, h'.errOp.trans h.errOp⟩

theorem sameData_settle_advance (s : State) : SameData s (settle s (advance s)) :=
  ⟨advance_cfg s, advance_dbuf s, advance_src s, advance_errDigit s, advance_errOp s⟩

theorem step_of_busy {s : State} (hr : (portInputs s).rst = false) (hi : s.fsm ≠ .idle) (hu : s.fsm.unused = false) :
    step s = .next (settle s (advance s)) :=
  step_of_block (blockCycle_busy hr hi hu)

/-- One cycle of a transfer (42_line_fsm.md R163, R167). -/
theorem step_follows_timeline {s : State} {m : Nat} (h : sequencingOf s = timeline s.cfg m)
    (hm : m < s.cfg.transferCycles) (hr : (portInputs s).rst = false) :
    ∃ t, step s = .next t ∧ sequencingOf t = timeline s.cfg (m + 1) ∧ SameData s t := by
  have hf := fsm_of_sequencingOf h
  have hi : s.fsm ≠ .idle := by rw [hf, ne_eq, timeline_fsm_idle_iff]; omega
  have hu : s.fsm.unused = false := hf ▸ timeline_fsm_used s.cfg m
  exact ⟨_, step_of_busy hr hi hu, advance_follows_timeline h hm, sameData_settle_advance s⟩

/-- From any point of the timeline on, a run without `rst` follows it to its end. -/
theorem run_follows_timeline {s : State} {m : Nat} (h : sequencingOf s = timeline s.cfg m) :
    ∀ k, m + k ≤ s.cfg.transferCycles → NoReset k s →
      ∃ t, runFor k s = .next t ∧ sequencingOf t = timeline s.cfg (m + k) ∧ SameData s t := by
  intro k
  induction k with
  | zero => exact fun _ _ => ⟨s, rfl, h, SameData.refl s⟩
  | succ k ih =>
    intro hk hr
    obtain ⟨t, ht, hq, hd⟩ := ih (by omega) (hr.mono (Nat.le_succ k))
    rw [← hd.cfg] at hq hk
    obtain ⟨u, hu, hq', hd'⟩ := step_follows_timeline hq (by omega) (hr.at (Nat.lt_succ_self k) ht)
    exact ⟨u, runFor_snoc ht hu, hd.cfg ▸ hq', hd.trans hd'⟩

/-- The state a run has reached is that of the timeline. -/
theorem timeline_of_runFor {s t : State} {m k : Nat} (h : sequencingOf s = timeline s.cfg m)
    (hk : m + k ≤ s.cfg.transferCycles) (hr : NoReset k s) (ht : runFor k s = .next t) :
    sequencingOf t = timeline s.cfg (m + k) ∧ SameData s t := by
  obtain ⟨t', ht', hq, hd⟩ := run_follows_timeline h k hk hr
  cases ht'.symm.trans ht
  exact ⟨hq, hd⟩

/-- Settles O37: a transfer stands at the head of the timeline, which is busy up to its end. -/
theorem transferTimeline : Obligations.TransferTimeline := by
  intro s m h hm hr
  rw [← timeline_zero] at h
  obtain ⟨t, ht, hq, hd⟩ := run_follows_timeline h m ((Nat.zero_add m).symm ▸ hm) hr
  rw [Nat.zero_add] at hq
  refine ⟨t, ht, hq, ?_, hd.dbuf, hd.src, hd.errDigit, hd.errOp⟩
  rw [busy_iff, fsm_of_sequencingOf hq, ne_eq, timeline_fsm_idle_iff, Nat.not_le]
  rfl

/-! ## Every state of the invariants stands on the timeline -/

theorem div_mod_of_phase {T r : Nat} (j : Nat) (h : r < T) : (T * j + r) / T = j ∧ (T * j + r) % T = r := by
  constructor
  · rw [Nat.mul_add_div (by omega), Nat.div_eq_of_lt h, Nat.add_zero]
  · rw [Nat.mul_add_mod, Nat.mod_eq_of_lt h]

/-- Which stream bit is bit `b` of position `p`: the inverse of `streamPos` and `streamBit` (41_transfer_commands.md
R132). -/
def streamIndex (c : Config) (p b : Nat) : Nat := c.b * (c.n - 1 - p) + (c.b - 1 - b)

theorem streamIndex_spec {c : Config} {p b : Nat} (hp : p < c.n) (hb : b < c.b) :
    streamIndex c p b < c.nb ∧ streamPos c (streamIndex c p b) = p ∧ streamBit c (streamIndex c p b) = b := by
  obtain ⟨hd, hm⟩ := div_mod_of_phase (T := c.b) (r := c.b - 1 - b) (c.n - 1 - p) (by omega)
  refine ⟨?_, ?_, ?_⟩
  · have hle : c.b * (c.n - 1 - p + 1) ≤ c.b * c.n := Nat.mul_le_mul_left _ (by omega)
    rw [Nat.mul_add] at hle
    rw [streamIndex, Config.nb, Nat.mul_comm c.n]
    omega
  · rw [streamPos, streamIndex, hd]; omega
  · rw [streamBit, streamIndex, hm]; omega

/-! The points of the timeline in each phase, `r` ticks after the phase began. -/

theorem timeline_setup_at {c : Config} {k r : Nat} (hk : k < c.nb) (hr : r < c.tShort) :
    timeline c (c.tShort * (2 * k) + r) = ⟨.setup, streamPos c k, streamBit c k, r⟩ := by
  obtain ⟨hd, hm⟩ := div_mod_of_phase (2 * k) hr
  rw [timeline_shifting (by omega), hd, hm]
  simp

theorem timeline_high_at {c : Config} {k r : Nat} (hk : k < c.nb) (hr : r < c.tShort) :
    timeline c (c.tShort * (2 * k + 1) + r) = ⟨.high, streamPos c k, streamBit c k, r⟩ := by
  obtain ⟨hd, hm⟩ := div_mod_of_phase (2 * k + 1) hr
  have hhalf : (2 * k + 1) / 2 = k := by omega
  have hodd : (2 * k + 1) % 2 = 1 := by omega
  rw [timeline_shifting (by omega), hd, hm, hhalf, hodd]
  simp

theorem timeline_lsetup_at {c : Config} {r : Nat} (hr : r < c.tShort) :
    timeline c (c.tShort * (2 * c.nb) + r) = ⟨.lsetup, 0, 0, r⟩ := by
  obtain ⟨hd, hm⟩ := div_mod_of_phase (2 * c.nb) hr
  rw [timeline_lsetup hd, hm]

theorem timeline_lhigh_at {c : Config} {r : Nat} (hr : r < c.tShort) :
    timeline c (c.tShort * (2 * c.nb + 1) + r) = ⟨.lhigh, 0, 0, r⟩ := by
  obtain ⟨hd, hm⟩ := div_mod_of_phase (2 * c.nb + 1) hr
  rw [timeline_lhigh hd, hm]

theorem timeline_end (c : Config) : timeline c c.transferCycles = ⟨.idle, 0, 0, 0⟩ :=
  timeline_idle (transferCycles_le_iff.mp le_rfl)

/-- Before its end a point of the timeline is busy, so a busy point lies before its end. -/
theorem le_transferCycles_of_busy {s : State} {m : Nat} (h : sequencingOf s = timeline s.cfg m) (hi : s.fsm ≠ .idle) :
    m ≤ s.cfg.transferCycles := by
  rw [fsm_of_sequencingOf h, ne_eq, timeline_fsm_idle_iff] at hi
  omega

/-- A state that satisfies R43 stands somewhere on the timeline, an idle one at its end. -/
theorem State.Inv.on_timeline {s : State} (h : s.Inv) :
    ∃ m, m ≤ s.cfg.transferCycles ∧ sequencingOf s = timeline s.cfg m := by
  by_cases hi : s.fsm = .idle
  · obtain ⟨hp, hb, ht⟩ := h.idle_rest hi
    exact ⟨_, le_rfl, (sequencingOf_eq_iff.mpr ⟨hi, hp, hb, ht⟩).trans (timeline_end s.cfg).symm⟩
  · suffices hm : ∃ m, sequencingOf s = timeline s.cfg m by
      obtain ⟨m, hm⟩ := hm
      exact ⟨m, le_transferCycles_of_busy hm hi, hm⟩
    obtain ⟨hk, hp, hb⟩ := streamIndex_spec h.pos_lt h.bit_lt
    rcases busy_phase_cases s hi h.used with hf | hf | hf | hf
    · exact ⟨_, (sequencingOf_eq_iff.mpr ⟨hf, hp.symm, hb.symm, rfl⟩).trans (timeline_setup_at hk h.tick_lt).symm⟩
    · exact ⟨_, (sequencingOf_eq_iff.mpr ⟨hf, hp.symm, hb.symm, rfl⟩).trans (timeline_high_at hk h.tick_lt).symm⟩
    · obtain ⟨hp, hb⟩ := h.latch_rest (.inl hf)
      exact ⟨_, (sequencingOf_eq_iff.mpr ⟨hf, hp, hb, rfl⟩).trans (timeline_lsetup_at h.tick_lt).symm⟩
    · obtain ⟨hp, hb⟩ := h.latch_rest (.inr hf)
      exact ⟨_, (sequencingOf_eq_iff.mpr ⟨hf, hp, hb, rfl⟩).trans (timeline_lhigh_at h.tick_lt).symm⟩

/-! ## The time until the block is ready -/

/-- The run to the end of the timeline is busy in every cycle before, and idle there. -/
theorem run_to_idle {s : State} {m : Nat} (h : sequencingOf s = timeline s.cfg m) (hm : m ≤ s.cfg.transferCycles)
    (hr : NoReset (s.cfg.transferCycles - m) s) :
    ∃ t, runFor (s.cfg.transferCycles - m) s = .next t ∧ t.fsm = .idle ∧
      ∀ j u, j < s.cfg.transferCycles - m → runFor j s = .next u → u.fsm ≠ .idle := by
  obtain ⟨t, ht, hq, -⟩ := run_follows_timeline h (s.cfg.transferCycles - m) (by omega) hr
  refine ⟨t, ht, ?_, fun j u hj hu => ?_⟩
  · rw [fsm_of_sequencingOf hq, timeline_fsm_idle_iff]
    omega
  · obtain ⟨hq, -⟩ := timeline_of_runFor h (by omega) (hr.mono hj.le) hu
    rw [fsm_of_sequencingOf hq, ne_eq, timeline_fsm_idle_iff]
    omega

/-- Settles O38: what is left of the timeline is at most the whole of it. -/
theorem readyWithinTheBound : Obligations.ReadyWithinTheBound := by
  intro s h hr
  obtain ⟨m, hm, hq⟩ := h.on_timeline
  have hle : s.cfg.transferCycles - m ≤ s.cfg.transferCycles := Nat.sub_le _ _
  obtain ⟨t, ht, hi, -⟩ := run_to_idle hq hm (hr.mono hle)
  exact ⟨_, t, hle, ht, (cmdReady_iff t).mpr hi⟩

/-- `P` says of a busy block's state that its host drives no `rst`, and the step to the next cycle keeps `P`. -/
def HeldWhileBusy (P : State → Prop) : Prop :=
  ∀ u, P u → u.fsm ≠ .idle → (portInputs u).rst = false ∧ ∀ v, step u = .next v → P v

theorem NoReset.snoc {k : Nat} {s : State} (h : NoReset k s)
    (hl : ∀ t, runFor k s = .next t → (portInputs t).rst = false) : NoReset (k + 1) s := by
  intro j t hj ht
  rcases Nat.lt_succ_iff_lt_or_eq.mp hj with hj | rfl
  · exact h.at hj ht
  · exact hl t ht

/-- Such a `P` holds of every state of a run along the timeline, which then has no `rst`. -/
theorem HeldWhileBusy.run {P : State → Prop} (hP : HeldWhileBusy P) {s : State} {m : Nat} (hs : P s)
    (h : sequencingOf s = timeline s.cfg m) :
    ∀ k, m + k ≤ s.cfg.transferCycles → NoReset k s ∧ ∀ t, runFor k s = .next t → P t := by
  intro k
  induction k with
  | zero => exact fun _ => ⟨fun j _ hj => absurd hj (Nat.not_lt_zero j), by rintro t ht; cases ht; exact hs⟩
  | succ k ih =>
    intro hk
    obtain ⟨hr, hkeep⟩ := ih (by omega)
    have hbusy : ∀ t, runFor k s = .next t → t.fsm ≠ .idle := by
      intro t ht
      obtain ⟨hq, -⟩ := timeline_of_runFor h (by omega) hr ht
      rw [fsm_of_sequencingOf hq, ne_eq, timeline_fsm_idle_iff]
      omega
    refine ⟨hr.snoc fun t ht => (hP t (hkeep t ht) (hbusy t ht)).1, fun u hu => ?_⟩
    obtain ⟨t, ht, hstep⟩ := runFor_snoc_next hu
    exact (hP t (hkeep t ht) (hbusy t ht)).2 u hstep

/-- From a state of the invariants, such a `P` is kept until the block is idle, for the first time, within one
transfer. -/
theorem HeldWhileBusy.until_idle {P : State → Prop} (hP : HeldWhileBusy P) {s : State} (h : s.Inv) (hs : P s) :
    ∃ k t, k ≤ s.cfg.transferCycles ∧ runFor k s = .next t ∧ t.fsm = .idle ∧ P t ∧
      ∀ j u, j < k → runFor j s = .next u → u.fsm ≠ .idle := by
  obtain ⟨m, hm, hq⟩ := h.on_timeline
  obtain ⟨hr, hkeep⟩ := hP.run hs hq (s.cfg.transferCycles - m) (by omega)
  obtain ⟨t, ht, hi, hfirst⟩ := run_to_idle hq hm hr
  exact ⟨_, t, Nat.sub_le _ _, ht, hi, hkeep t ht, hfirst⟩

/-! ## A held command line, and the end of a program (43_host_sequencer.md R211) -/

theorem step_host {s t : State} (h : step s = .next t) : t.host = hostNext s := by
  obtain ⟨u, -, rfl⟩ := step_next_iff.mp h
  exact settle_host s u

theorem portInputs_of_cmd {s : State} {op : OpCode} {data : Nat} {rest : List Line}
    (h : s.host = .program (.cmd op data :: rest)) : portInputs s = commandInputs op data := portInputs_program h

theorem hostNext_of_cmd {s : State} {op : OpCode} {data : Nat} {rest : List Line}
    (h : s.host = .program (.cmd op data :: rest)) :
    hostNext s = .program (if cmdReady s then rest else .cmd op data :: rest) := hostNext_program h

theorem heldWhileBusy_cmd (op : OpCode) (data : Nat) (rest : List Line) :
    HeldWhileBusy fun u => u.host = .program (.cmd op data :: rest) := by
  intro u hu hi
  refine ⟨by rw [portInputs_of_cmd hu]; rfl, fun v hv => ?_⟩
  refine (step_host hv).trans ?_
  rw [hostNext_of_cmd hu, (cmdReady_false_iff u).mpr hi]
  rfl

/-- Settles O39: the line is held while the block is busy, and is accepted in the first idle cycle. -/
theorem heldCommandIsAccepted : Obligations.HeldCommandIsAccepted := by
  intro s op data rest h hh
  obtain ⟨k, t, hk, ht, hi, hline, -⟩ := (heldWhileBusy_cmd op data rest).until_idle h hh
  have hready : cmdReady t = true := (cmdReady_iff t).mpr hi
  refine ⟨k, t, hk, ht, ?_, ?_, ?_⟩
  · rw [portInputs_of_cmd hline, accepts_commandInputs, hready]
  · rw [portInputs_of_cmd hline, portInstr, runFor_cfg ht]
    rfl
  · rw [hostNext_of_cmd hline, if_pos hready]

/-- The host is a program of which every line left takes no cycle. -/
def ProgramIsDone (s : State) : Prop := ∃ lines, s.host = .program lines ∧ programDone (cmdReady s) lines = true

theorem ProgramIsDone.driven {s : State} (h : ProgramIsDone s) :
    portInputs s = quietInputs ∧ hostNext s = .program [] := by
  obtain ⟨lines, hh, hd⟩ := h
  rw [portInputs_program hh, hostNext_program hh, programDrive_done hd]
  exact ⟨rfl, rfl⟩

theorem ProgramIsDone.step {s t : State} (h : ProgramIsDone s) (hs : step s = .next t) : ProgramIsDone t :=
  ⟨[], (step_host hs).trans h.driven.2, rfl⟩

theorem heldWhileBusy_programIsDone : HeldWhileBusy ProgramIsDone := fun _ hu _ =>
  ⟨by rw [hu.driven.1]; rfl, fun _ hv => hu.step hv⟩

theorem runEnded_iff (s : State) : runEnded s = true ↔ ProgramIsDone s ∧ s.fsm = .idle := by
  cases h : s.host with
  | program lines => simp [runEnded_program h, ProgramIsDone, h]
  | trace inputs => simp [runEnded, ProgramIsDone, h]
  | refresh loop => simp [runEnded, ProgramIsDone, h]

/-- An ended run stays ended: the block's cycle is quiet and the host has no line (43_host_sequencer.md R211). -/
theorem step_of_runEnded {s : State} (h : runEnded s = true) :
    step s = .next (settle s s) ∧ runEnded (settle s s) = true := by
  obtain ⟨hd, hi⟩ := (runEnded_iff s).mp h
  have hp := hd.driven.1
  have hs : step s = .next (settle s s) := step_of_block (blockCycle_quiet (by rw [hp]; rfl) hi (by rw [hp]; rfl))
  exact ⟨hs, (runEnded_iff _).mpr ⟨hd.step hs, hi⟩⟩

/-- From the last line on, the end of the run comes for the first time in the first idle cycle. -/
theorem runEnded_within_transfer {s : State} (h : s.Inv) (hd : ProgramIsDone s) :
    ∃ k t, k ≤ s.cfg.transferCycles ∧ runFor k s = .next t ∧ runEnded t = true ∧
      ∀ j u, j < k → runFor j s = .next u → runEnded u = false := by
  obtain ⟨k, t, hk, ht, hi, hdone, hfirst⟩ := heldWhileBusy_programIsDone.until_idle h hd
  refine ⟨k, t, hk, ht, (runEnded_iff t).mpr ⟨hdone, hi⟩, fun j u hj hu => ?_⟩
  rw [← Bool.not_eq_true, runEnded_iff]
  exact fun hend => hfirst j u hj hu hend.2

/-- Settles O54: the rows of `programDone`, what a done program drives, and when its block comes to rest and stays. -/
theorem endOfTheRun : Obligations.EndOfTheRun := by
  refine ⟨fun ready rest => ⟨rfl, fun _ _ => rfl, fun _ => ⟨rfl, rfl⟩, rfl, rfl, rfl⟩, fun s lines hh =>
    ⟨runEnded_program hh, fun hd => ProgramIsDone.driven ⟨lines, hh, hd⟩, fun he => ?_, fun h hd =>
      runEnded_within_transfer h ⟨lines, hh, hd⟩⟩⟩
  obtain ⟨hs, hend⟩ := step_of_runEnded he
  exact ⟨settle s s, hs, hend, rfl, rfl, rfl, rfl, rfl⟩

end Sys2Proof.Machine

/-! PROOFS on the lines and the receiver through a transfer: the levels at each point of the timeline
(41_transfer_commands.md R132, R133; 42_line_fsm.md R171), and what the receiver holds after each of its cycles
(42_line_fsm.md R182). -/

namespace Sys2Proof.Machine

/-! ## The lines along the timeline -/

/-- The levels `m` cycles after the first SETUP cycle of a transfer of the codes `code`: SER_DATA carries a stream bit
through two phases, SER_CLK is 1 in the second, SER_LATCH in LHIGH (42_line_fsm.md R170). -/
def timelineLines (c : Config) (code : Nat → Code) (m : Nat) : Lines :=
  if m / c.tShort < 2 * c.nb then ⟨streamOf c code (m / c.tShort / 2), decide (m / c.tShort % 2 = 1), false⟩
  else ⟨false, false, decide (m / c.tShort = 2 * c.nb + 1)⟩

section levels
variable {c : Config} {code : Nat → Code} {m : Nat}

theorem timelineLines_shifting (h : m / c.tShort < 2 * c.nb) :
    timelineLines c code m = ⟨streamOf c code (m / c.tShort / 2), decide (m / c.tShort % 2 = 1), false⟩ := if_pos h

theorem timelineLines_latching (h : ¬ m / c.tShort < 2 * c.nb) :
    timelineLines c code m = ⟨false, false, decide (m / c.tShort = 2 * c.nb + 1)⟩ := if_neg h

theorem timelineLines_clk_iff :
    (timelineLines c code m).clk = true ↔ m / c.tShort < 2 * c.nb ∧ m / c.tShort % 2 = 1 := by
  by_cases h : m / c.tShort < 2 * c.nb
  · simp [timelineLines_shifting h, h]
  · simp [timelineLines_latching h, h]

theorem timelineLines_latch_iff : (timelineLines c code m).latch = true ↔ m / c.tShort = 2 * c.nb + 1 := by
  by_cases h : m / c.tShort < 2 * c.nb
  · rw [timelineLines_shifting h]
    exact iff_of_false nofun (by omega)
  · simp [timelineLines_latching h]

/-- Only the codes at the positions of the block are sent (41_transfer_commands.md R133). -/
theorem timelineLines_congr {code' : Nat → Code} (h : ∀ p, p < c.n → code p = code' p) :
    timelineLines c code m = timelineLines c code' m := by
  have hs : streamOf c code (m / c.tShort / 2) = streamOf c code' (m / c.tShort / 2) := by
    rw [streamOf, streamOf, h _ (streamPos_lt c _)]
  rw [timelineLines, timelineLines, hs]

end levels

theorem SameData.codeAt {s t : State} (h : SameData s t) : codeAt t = codeAt s := funext (codeAt_congr h.src h.dbuf)

theorem timeline_fsm_shifting {c : Config} {m : Nat} (h : m / c.tShort < 2 * c.nb) :
    ((timeline c m).fsm = .setup ∨ (timeline c m).fsm = .high) ∧
      ((timeline c m).fsm = .high ↔ m / c.tShort % 2 = 1) := by
  rw [timeline_shifting h]
  dsimp only
  split
  · exact ⟨.inl rfl, iff_of_false nofun (by omega)⟩
  · exact ⟨.inr rfl, iff_of_true rfl (by omega)⟩

theorem timeline_fsm_latching {c : Config} {m : Nat} (h : ¬ m / c.tShort < 2 * c.nb) :
    (timeline c m).fsm ≠ .setup ∧ (timeline c m).fsm ≠ .high ∧
      ((timeline c m).fsm = .lhigh ↔ m / c.tShort = 2 * c.nb + 1) := by
  rcases phase_stretches c (m / c.tShort) with hj | hj | hj | hj
  · exact absurd hj h
  · rw [timeline_lsetup hj]
    exact ⟨nofun, nofun, iff_of_false nofun (by omega)⟩
  · rw [timeline_lhigh hj]
    exact ⟨nofun, nofun, iff_of_true rfl hj⟩
  · rw [timeline_idle hj]
    exact ⟨nofun, nofun, iff_of_false nofun (by omega)⟩

/-- The lines of a state on the timeline (42_line_fsm.md R170). -/
theorem linesOf_on_timeline {s : State} {m : Nat} (h : sequencingOf s = timeline s.cfg m) :
    linesOf s = timelineLines s.cfg (codeAt s) m := by
  obtain ⟨hf, hp, hb, -⟩ := sequencingOf_eq_iff.mp h
  by_cases hj : m / s.cfg.tShort < 2 * s.cfg.nb
  · obtain ⟨hphase, hhigh⟩ := timeline_fsm_shifting hj
    rw [← hf] at hphase hhigh
    rw [timeline_shifting hj] at hp hb
    rw [linesOf_shifting hphase, timelineLines_shifting hj, hp, hb, decide_eq_decide.mpr hhigh]
    rfl
  · obtain ⟨hset, hhigh, hlatch⟩ := timeline_fsm_latching hj
    rw [← hf] at hset hhigh hlatch
    rw [linesOf_not_shifting hset hhigh, timelineLines_latching hj, decide_eq_decide.mpr hlatch]

/-- The lines a run from the first SETUP cycle has reached. -/
theorem linesOf_of_runFor {s t : State} {m : Nat} (h : sequencingOf s = timeline s.cfg 0)
    (hm : m ≤ s.cfg.transferCycles) (hr : NoReset m s) (ht : runFor m s = .next t) :
    linesOf t = timelineLines s.cfg (codeAt s) m := by
  obtain ⟨hq, hd⟩ := timeline_of_runFor h (by omega) hr ht
  rw [Nat.zero_add, ← hd.cfg] at hq
  rw [linesOf_on_timeline hq, hd.cfg, hd.codeAt]

/-- Settles O40: the two phases of bit k are the phases 2k and 2k+1 of the timeline. -/
theorem bitstreamOnTheLines : Obligations.BitstreamOnTheLines := by
  intro s t k m h hk hlo hhi hr ht
  rw [← timeline_zero] at h
  have hT := s.cfg.tShort_pos
  have hge : 2 * k ≤ m / s.cfg.tShort := (Nat.le_div_iff_mul_le hT).mpr hlo
  have hlt : m / s.cfg.tShort < 2 * k + 2 := (Nat.div_lt_iff_lt_mul hT).mpr hhi
  have hnb : k < s.cfg.nb := hk
  have hend : ¬ s.cfg.transferCycles ≤ m := by
    rw [transferCycles_le_iff]
    omega
  have hl := linesOf_of_runFor h (by omega) hr ht
  have hhalf : m / s.cfg.tShort / 2 = k := by omega
  have hclk : m / s.cfg.tShort % 2 = 1 ↔ (2 * k + 1) * s.cfg.tShort ≤ m := by
    rw [← Nat.le_div_iff_mul_le hT]
    omega
  rw [timelineLines_shifting (by omega), hhalf] at hl
  simp only [linesOf, Lines.mk.injEq, hclk] at hl
  exact hl

/-- Settles O42: the lines along the timeline are a function of the parameters and of the codes sent. -/
theorem sameCodesSameTrace : Obligations.SameCodesSameTrace := by
  intro s s' t t' m hcfg hcode h h' hm hr hr' ht ht'
  rw [← timeline_zero] at h
  rw [h, hcfg] at h'
  rw [linesOf_of_runFor h hm hr ht, linesOf_of_runFor h' (hcfg ▸ hm) hr' ht', ← hcfg, timelineLines_congr hcode]

/-! ## Edges -/

theorem linesOf_clk (s : State) : (linesOf s).clk = serClk s := rfl

theorem linesOf_latch (s : State) : (linesOf s).latch = serLatch s := rfl

/-- The next cycle is in the same phase or opens the next one. -/
theorem phase_succ_cases {T : Nat} (hT : 0 < T) (m : Nat) : (m + 1) / T = m / T ∨ (m + 1) / T = m / T + 1 := by
  by_cases h : m % T < T - 1
  · exact .inl (div_mod_count h).1
  · exact .inr (div_mod_end hT h).1

/-- The cycle that opens phase `p`. -/
theorem opens_phase_iff {T p m : Nat} (hT : 0 < T) : m + 1 = p * T ↔ (m + 1) / T = p ∧ m / T ≠ p := by
  constructor
  · intro h
    have hlt : m / T < p := (Nat.div_lt_iff_lt_mul hT).mpr (by omega)
    exact ⟨by rw [h, Nat.mul_div_cancel _ hT], by omega⟩
  · rintro ⟨hp, hne⟩
    have hlo : p * T ≤ m + 1 := (Nat.le_div_iff_mul_le hT).mp hp.ge
    have hhi : m < p * T := (Nat.div_lt_iff_lt_mul hT).mp (by rcases phase_succ_cases hT m with e | e <;> omega)
    omega

theorem clk_rises_iff {c : Config} {code : Nat → Code} {m : Nat} :
    ((timelineLines c code m).clk = false ∧ (timelineLines c code (m + 1)).clk = true) ↔
      ∃ k, k < c.nb ∧ m + 1 = (2 * k + 1) * c.tShort := by
  have hsucc := phase_succ_cases c.tShort_pos m
  simp only [← Bool.not_eq_true, timelineLines_clk_iff, opens_phase_iff c.tShort_pos]
  constructor
  · rintro ⟨hlow, hlt, hodd⟩
    exact ⟨(m + 1) / c.tShort / 2, by omega, by omega, by omega⟩
  · rintro ⟨k, hk, hp, hne⟩
    omega

theorem latch_rises_iff {c : Config} {code : Nat → Code} {m : Nat} :
    ((timelineLines c code m).latch = false ∧ (timelineLines c code (m + 1)).latch = true) ↔
      m + 1 = (2 * c.nb + 1) * c.tShort := by
  rw [← Bool.not_eq_true, timelineLines_latch_iff, timelineLines_latch_iff, opens_phase_iff c.tShort_pos, and_comm]

/-- Settles O41: the edges of the lines along the timeline are the openings of its HIGH phases and of LHIGH. -/
theorem risingEdgesOfATransfer : Obligations.RisingEdgesOfATransfer := by
  intro s t u m h hm hr ht hu
  rw [← timeline_zero] at h
  have hl := linesOf_of_runFor h hm.le (hr.mono (Nat.le_succ m)) ht
  have hl' := linesOf_of_runFor h hm hr hu
  rw [← linesOf_clk t, ← linesOf_clk u, ← linesOf_latch t, ← linesOf_latch u, hl, hl']
  exact ⟨clk_rises_iff, latch_rises_iff⟩

/-! ## The receiver along the timeline -/

/-- How many stream bits the receiver has taken once its step of cycle `m` is made: one at each rise of SER_CLK. -/
def bitsTaken (c : Config) (m : Nat) : Nat := min c.nb ((m / c.tShort + 1) / 2)

/-- What the receiver holds once its step of cycle `m` is made: the bits taken, the last one in stage 0; the levels of
the cycle; and in OUT what it held before the transfer until LHIGH, and SR from then on. -/
structure Received (c : Config) (code : Nat → Code) (old : List Bool) (m : Nat) (r : Receiver) : Prop where
  sr : ∀ i, i < bitsTaken c m → r.sr[i]? = some (streamOf c code (bitsTaken c m - 1 - i))
  prevClk : r.prevClk = (timelineLines c code m).clk
  prevLatch : r.prevLatch = (timelineLines c code m).latch
  out_before : m / c.tShort < 2 * c.nb + 1 → r.out = old
  out_after : 2 * c.nb + 1 ≤ m / c.tShort → r.out = r.sr

section received
variable {c : Config} {code : Nat → Code} {old : List Bool} {m : Nat} {r : Receiver}

theorem bitsTaken_zero (c : Config) : bitsTaken c 0 = 0 := by simp [bitsTaken]

/-- In the first SETUP cycle nothing is taken yet. -/
theorem received_zero :
    Received c code r.out 0 (receiverStep c.nb (timelineLines c code 0) r) where
  sr := by simp [bitsTaken_zero]
  prevClk := rfl
  prevLatch := rfl
  out_before := fun _ => receiverStep_out_hold _ _ _ fun ⟨h, _⟩ => by
    rw [timelineLines_latch_iff, Nat.zero_div] at h
    omega
  out_after := fun h => by
    rw [Nat.zero_div] at h
    omega

/-- A rise of SER_CLK takes one bit, the one on SER_DATA. -/
theorem bitsTaken_of_rise (h : (timelineLines c code m).clk = false) (h' : (timelineLines c code (m + 1)).clk = true) :
    bitsTaken c (m + 1) = bitsTaken c m + 1 ∧
      (timelineLines c code (m + 1)).data = streamOf c code (bitsTaken c m) := by
  have hsucc := phase_succ_cases c.tShort_pos m
  rw [← Bool.not_eq_true, timelineLines_clk_iff] at h
  rw [timelineLines_clk_iff] at h'
  have hk : bitsTaken c m = (m + 1) / c.tShort / 2 := by simp only [bitsTaken]; omega
  refine ⟨by simp only [bitsTaken] at hk ⊢; omega, ?_⟩
  rw [timelineLines_shifting h'.1, hk]

theorem bitsTaken_of_no_rise
    (h : ¬ ((timelineLines c code (m + 1)).clk = true ∧ (timelineLines c code m).clk = false)) :
    bitsTaken c (m + 1) = bitsTaken c m := by
  have hsucc := phase_succ_cases c.tShort_pos m
  rw [← Bool.not_eq_true, timelineLines_clk_iff, timelineLines_clk_iff] at h
  simp only [bitsTaken]
  omega

theorem Received.next_sr (h : Received c code old m r) :
    ∀ i, i < bitsTaken c (m + 1) →
      (receiverStep c.nb (timelineLines c code (m + 1)) r).sr[i]? =
        some (streamOf c code (bitsTaken c (m + 1) - 1 - i)) := by
  intro i hi
  by_cases hrise : (timelineLines c code (m + 1)).clk = true ∧ (timelineLines c code m).clk = false
  · obtain ⟨hclk, hlow⟩ := hrise
    obtain ⟨htaken, hdata⟩ := bitsTaken_of_rise hlow hclk
    have hprev : r.prevClk = false := h.prevClk.trans hlow
    have hnb : bitsTaken c (m + 1) ≤ c.nb := Nat.min_le_left _ _
    cases i with
    | zero =>
      rw [receiverStep_sr_rise_zero hclk hprev (nb_pos c), hdata, htaken]
      rfl
    | succ i =>
      rw [receiverStep_sr_rise_succ hclk hprev (by omega), h.sr i (by omega), htaken]
      congr 2
      omega
  · have htaken := bitsTaken_of_no_rise hrise
    rw [receiverStep_sr_hold _ _ _ (h.prevClk ▸ hrise), htaken, h.sr i (by omega)]

theorem Received.next_out_before (h : Received c code old m r) (hm : (m + 1) / c.tShort < 2 * c.nb + 1) :
    (receiverStep c.nb (timelineLines c code (m + 1)) r).out = old := by
  have hsucc := phase_succ_cases c.tShort_pos m
  have hlow : ¬ (timelineLines c code (m + 1)).latch = true := by rw [timelineLines_latch_iff]; omega
  rw [receiverStep_out_hold _ _ _ fun ⟨hl, _⟩ => hlow hl]
  exact h.out_before (by omega)

theorem Received.next_out_after (h : Received c code old m r) (hm : 2 * c.nb + 1 ≤ (m + 1) / c.tShort) :
    (receiverStep c.nb (timelineLines c code (m + 1)) r).out =
      (receiverStep c.nb (timelineLines c code (m + 1)) r).sr := by
  have hsucc := phase_succ_cases c.tShort_pos m
  by_cases hrise : (timelineLines c code (m + 1)).latch = true ∧ r.prevLatch = false
  · exact receiverStep_out_rise _ _ _ hrise.1 hrise.2
  · have hclk : ¬ (timelineLines c code (m + 1)).clk = true := by rw [timelineLines_clk_iff]; omega
    rw [receiverStep_out_hold _ _ _ hrise, receiverStep_sr_hold _ _ _ fun ⟨hc, _⟩ => hclk hc]
    rw [h.prevLatch, ← Bool.not_eq_true, timelineLines_latch_iff, timelineLines_latch_iff] at hrise
    exact h.out_after (by omega)

theorem Received.next (h : Received c code old m r) :
    Received c code old (m + 1) (receiverStep c.nb (timelineLines c code (m + 1)) r) :=
  ⟨h.next_sr, rfl, rfl, h.next_out_before, h.next_out_after⟩

/-- Once LHIGH has come, stage p*B + b of OUT holds bit b of the pattern of position p (42_line_fsm.md R182). -/
theorem Received.out_stage (h : Received c code old m r) (hm : 2 * c.nb + 1 ≤ m / c.tShort) {p b : Nat}
    (hp : p < c.n) (hb : b < c.b) : r.out[p * c.b + b]? = some (patternBit c (code p) b) := by
  obtain ⟨hk, hpos, hbit⟩ := streamIndex_spec hp hb
  have hall : bitsTaken c m = c.nb := by simp only [bitsTaken]; omega
  have hstage : p * c.b + b + streamIndex c p b + 1 = c.nb := by
    have hsum : p * c.b + c.b * (c.n - 1 - p) + c.b = c.nb := by
      rw [Nat.mul_comm p, ← Nat.mul_add, ← Nat.mul_succ, Config.nb, Nat.mul_comm c.n]
      congr 1
      omega
    simp only [streamIndex]
    omega
  have hidx : bitsTaken c m - 1 - (p * c.b + b) = streamIndex c p b := by omega
  rw [h.out_after hm, h.sr _ (by omega), hidx, streamOf, hpos, hbit]

end received

/-- The receiver of a run from the first SETUP cycle, its step of the last cycle taken. -/
theorem received_of_runFor {s : State} (h : sequencingOf s = timeline s.cfg 0) :
    ∀ (m : Nat) (t : State), m ≤ s.cfg.transferCycles → NoReset m s → runFor m s = .next t →
      Received s.cfg (codeAt s) s.rx.out m (receiverStep s.cfg.nb (linesOf t) t.rx) := by
  intro m
  induction m with
  | zero =>
    intro t hm hr ht
    rw [linesOf_of_runFor h hm hr ht]
    cases ht
    exact received_zero
  | succ m ih =>
    intro u hm hr hu
    obtain ⟨t, ht, hstep⟩ := runFor_snoc_next hu
    rw [linesOf_of_runFor h hm hr hu, step_rx hstep, runFor_cfg ht]
    exact (ih t (by omega) (hr.mono (Nat.le_succ m)) ht).next

section displayed
variable {s t : State} {m : Nat} (h : sequencingOf s = timeline s.cfg 0) (hm : m ≤ s.cfg.transferCycles)
  (hr : NoReset m s) (ht : runFor m s = .next t)
include h hm hr ht

theorem displayed_before_latch (hlt : m < (2 * s.cfg.nb + 1) * s.cfg.tShort) : displayed t = s.rx.out := by
  rw [displayed, runFor_cfg ht]
  exact (received_of_runFor h m t hm hr ht).out_before ((Nat.div_lt_iff_lt_mul s.cfg.tShort_pos).mpr hlt)

theorem displayed_after_latch (hge : (2 * s.cfg.nb + 1) * s.cfg.tShort ≤ m) {p b : Nat} (hp : p < s.cfg.n)
    (hb : b < s.cfg.b) : (displayed t)[p * s.cfg.b + b]? = some (patternBit s.cfg (codeAt s p) b) := by
  rw [displayed, runFor_cfg ht]
  exact (received_of_runFor h m t hm hr ht).out_stage ((Nat.le_div_iff_mul_le s.cfg.tShort_pos).mpr hge) hp hb

end displayed

/-- The accepting edge of a transfer, with SRC 1 for BLANK (41_transfer_commands.md R134, R135). -/
theorem step_starts_transfer {s : State} (ha : accepts (portInputs s) s = true)
    (hi : portInstr (portInputs s) s = .xfer ∨ portInstr (portInputs s) s = .blank) :
    step s = .next (settle s (startTransfer (decide (portInstr (portInputs s) s = .blank)) s)) := by
  refine step_of_accepts ha ?_
  rcases hi with hi | hi
  · rw [hi]; exact exec_xfer s
  · rw [hi]; exact exec_blank s

/-- A transfer begins at the head of the timeline (42_line_fsm.md R167). -/
theorem sequencingOf_startTransfer (src : Bool) (s : State) :
    sequencingOf (settle s (startTransfer src s)) = timeline s.cfg 0 := (timeline_zero s.cfg).symm

/-- A transfer sends BLANK when SRC is 1, and the cells of DBUF otherwise (41_transfer_commands.md R131). -/
theorem codeAt_startTransfer {s : State} {p : Nat} {c : Code} (src : Bool) (hp : s.dbuf[p]? = some c) :
    codeAt (settle s (startTransfer src s)) p = if src then 15#4 else c := by
  cases src with
  | true => exact codeAt_eq_of_src (.inl ⟨rfl, rfl⟩)
  | false => exact codeAt_eq_of_src (.inr ⟨rfl, hp⟩)

/-- Settles O43: the accepting edge leads to the head of the timeline, whose receiver shows its old pattern before LHIGH
and the codes sent from then on. -/
theorem completeTransferIsDisplayed : Obligations.CompleteTransferIsDisplayed := by
  intro s t m hinv _ ha hi hm hr ht
  have hstep := step_starts_transfer ha hi
  have hidle : s.fsm ≠ .lhigh := by rw [((accepts_iff _ s).mp ha).2.2]; decide
  have hhead := sequencingOf_startTransfer (decide (portInstr (portInputs s) s = .blank)) s
  have hr := hr.tail hstep
  rw [runFor_succ hstep] at ht
  refine ⟨fun hlt => ?before, fun hge p b c hp hb => ?after⟩
  case before => exact (displayed_before_latch hhead hm hr ht hlt).trans (displayed_of_not_latch hidle)
  case after =>
    have hpn : p < s.cfg.n := hinv.length ▸ (List.getElem?_eq_some_iff.mp hp).1
    have hshown := displayed_after_latch hhead hm hr ht hge hpn hb
    rw [codeAt_startTransfer _ hp] at hshown
    simpa only [decide_eq_true_eq, settle_cfg, startTransfer_cfg] using hshown

end Sys2Proof.Machine
